-- ==== Sys2Proof/Word.lean ====
section
/-! DEFINITION. The value types of PIPE16 and the readings of a 16-bit pattern (`00_scope.md` R7, R10, R11). -/

namespace Sys2Proof

/-- A 16-bit pattern: a register value, a memory cell, an address, a pc value (R7, R11). -/
abbrev Word := BitVec 16

/-- An 8-bit pattern: the immediate `data` (R29). -/
abbrev Byte := BitVec 8

/-- A 4-bit pattern: an instruction field (R29). -/
abbrev Nibble := BitVec 4

/-- A register number, one of 16 (R21): the value of a 4-bit field. -/
abbrev RegNum := BitVec 4

/-- `s16(v)` of R11: the pattern read as a two's-complement integer. -/
abbrev s16 (v : Word) : Int := v.toInt

/-- `u16(v)` of R11: the pattern read as an unsigned integer. -/
abbrev u16 (v : Word) : Nat := v.toNat

/-- `trunc16(n)` of R11: the pattern of the integer modulo 2^16. -/
abbrev trunc16 (n : Int) : Word := BitVec.ofInt 16 n

end Sys2Proof
end

