-- ==== Sys2Proof/Config.lean ====
section
/-! DEFINITION. The open parameters of R8. Each is an uninterpreted total function: a statement proved with it holds for
every value it could have, which is what R8 asks ("The model assumes nothing of it except that its value depends on its
arguments alone"). -/

namespace Sys2Proof

/-- The two shifts that `cfg.shiftOOR` tells apart (R8). -/
inductive ShiftOp where
  | shl | shr
deriving DecidableEq, Repr

/-- The harness's five error kinds (R339). None of them is a processor exception. -/
inductive ErrorKind where
  /-- Bad or missing arguments. -/
  | usage
  /-- A run count that is not an integer. -/
  | parse
  /-- A negative count; an image line that is out of range or not two integers (R333, D21). -/
  | range
  /-- The image file is not found. -/
  | io
  /-- The two models differ after both runs. -/
  | equivalenceMismatch
deriving DecidableEq, Repr

/-- `cfg.divZero` (R8, D7): the result of `div` by zero, given the dividend. DESIGN CHOICE of form, assumption 4. -/
opaque Config.divZero : Word → Word

/-- `cfg.shiftOOR` (R8, D8): the result of a shift by an amount outside 0..15, given the operation, the value and the
amount. DESIGN CHOICE of form, assumption 5. -/
opaque Config.shiftOOR : ShiftOp → Word → Word → Word

/-- One less than `cfg.exitCode` (R8, D23); see `Config.exitCode`. -/
opaque Config.exitCodePred : ErrorKind → Nat

/-- `cfg.exitCode` (R8, R340, D23): open, but never zero for an error. Assumption 6. -/
def Config.exitCode (k : ErrorKind) : Nat := Config.exitCodePred k + 1

/-- Which of several fatal harness errors that hold at once is reported: the spec gives no order (R339). Assumption 7. -/
opaque Config.fatalChoice : List ErrorKind → Nat

end Sys2Proof
end

