-- ==== Sys2Proof/Syntax.lean ====
section
/-! DEFINITION. The instruction set: the fields of a word (R70), the 30 mnemonics (R14, R72) and the 31 rows of
`spec/opcode_table.json`, one constructor of `Instr` each. -/

namespace Sys2Proof

/-- The four fields of an instruction word, high to low (R70): `f = (fn, rnumc, rnumb, rnuma)` of R120. -/
structure Fields where
  fn : Nibble
  rnumc : Nibble
  rnumb : Nibble
  rnuma : Nibble
deriving DecidableEq, Repr

/-- The mnemonics of R14 and R72. `ret` is the spec's `return`; the two rows named `unassigned` share one mnemonic
(R105, D12). -/
inductive Mnemonic where
  | nop | ldmem | stmem | call | ret | jump | branch | unassigned | pop | push
  | not | neg | cnot | popcount | bitrev
  | add | sub | mul | div | xor | and | or | shl | shr | lt | le
  | cmove | cadd | immlow | immhigh
deriving DecidableEq, Repr

/-- One constructor per row of the opcode table (R72). Operands stand in field order, high to low (R81). The fields a
row does not use (R78: any value gives the same effect) are operands named `freeC` and `freeA`, so that an instruction
keeps every bit of its word. -/
inductive Instr where
  | nop (freeC freeA : Nibble)
  | ldmem (rC rA : RegNum)
  | stmem (rC rA : RegNum)
  | call (rC rA : RegNum)
  | ret (freeC : Nibble) (rA : RegNum)
  | jump (freeC : Nibble) (rA : RegNum)
  | branch (rC rA : RegNum)
  | unassigned7 (freeC freeA : Nibble)
  | unassigned8 (freeC freeA : Nibble)
  | pop (rC rA : RegNum)
  | push (rC rA : RegNum)
  | not (rC rA : RegNum)
  | neg (rC rA : RegNum)
  | cnot (rC rA : RegNum)
  | popcount (rC rA : RegNum)
  | bitrev (rC rA : RegNum)
  | add (rC rB rA : RegNum)
  | sub (rC rB rA : RegNum)
  | mul (rC rB rA : RegNum)
  | div (rC rB rA : RegNum)
  | xor (rC rB rA : RegNum)
  | and (rC rB rA : RegNum)
  | or (rC rB rA : RegNum)
  | shl (rC rB rA : RegNum)
  | shr (rC rB rA : RegNum)
  | lt (rC rB rA : RegNum)
  | le (rC rB rA : RegNum)
  | cmove (rC rB rA : RegNum)
  | cadd (rC rB rA : RegNum)
  | immlow (rC : RegNum) (imm8 : Byte)
  | immhigh (rC : RegNum) (imm8 : Byte)
deriving DecidableEq, Repr

/-- The mnemonic of an instruction's row (R72). -/
def Instr.mnemonic : Instr → Mnemonic
  | .nop _ _ => .nop
  | .ldmem _ _ => .ldmem
  | .stmem _ _ => .stmem
  | .call _ _ => .call
  | .ret _ _ => .ret
  | .jump _ _ => .jump
  | .branch _ _ => .branch
  | .unassigned7 _ _ => .unassigned
  | .unassigned8 _ _ => .unassigned
  | .pop _ _ => .pop
  | .push _ _ => .push
  | .not _ _ => .not
  | .neg _ _ => .neg
  | .cnot _ _ => .cnot
  | .popcount _ _ => .popcount
  | .bitrev _ _ => .bitrev
  | .add _ _ _ => .add
  | .sub _ _ _ => .sub
  | .mul _ _ _ => .mul
  | .div _ _ _ => .div
  | .xor _ _ _ => .xor
  | .and _ _ _ => .and
  | .or _ _ _ => .or
  | .shl _ _ _ => .shl
  | .shr _ _ _ => .shr
  | .lt _ _ _ => .lt
  | .le _ _ _ => .le
  | .cmove _ _ _ => .cmove
  | .cadd _ _ _ => .cadd
  | .immlow _ _ => .immlow
  | .immhigh _ _ => .immhigh

end Sys2Proof
end

