-- ==== Sys2Proof/Decode.lean ====
section
/-! DEFINITION. Decoding a word (R70 to R79) and, after it, encoding an instruction (R80). -/

namespace Sys2Proof

/-! ### The word's fields (R70, R71) -/

/-- `decode(w)` of R71: the fields at their fixed bit positions. -/
def fieldsOf (w : Word) : Fields :=
  { fn := w.extractLsb' 12 4
    rnumc := w.extractLsb' 8 4
    rnumb := w.extractLsb' 4 4
    rnuma := w.extractLsb' 0 4 }

/-- The immediate alias `data = {rnumb, rnuma}` (R70, R76). -/
def Fields.data (f : Fields) : Byte := f.rnumb ++ f.rnuma

/-- The word that holds given fields: `{fn, c, b, a}` of R80. -/
def Fields.word (f : Fields) : Word := f.fn ++ f.rnumc ++ f.rnumb ++ f.rnuma

/-- High nibble of a byte: the `rnumb` half of `imm8` (R76). -/
def Byte.hi (v : Byte) : Nibble := v.extractLsb' 4 4

/-- Low nibble of a byte: the `rnuma` half of `imm8` (R76). -/
def Byte.lo (v : Byte) : Nibble := v.extractLsb' 0 4

/-! ### The opcode map (R72, R73) -/

/-- The left half of R72's table: `fn` 1 to 15. -/
def baseMnemonics : List Mnemonic :=
  [.add, .sub, .mul, .div, .xor, .and, .or, .shl, .shr, .lt, .le, .cmove, .cadd, .immlow, .immhigh]

/-- The right half of R72's table: `fn=0`, `rnumb` 0 to 15. -/
def subMnemonics : List Mnemonic :=
  [.nop, .ldmem, .stmem, .call, .ret, .jump, .branch, .unassigned, .unassigned, .pop, .push,
    .not, .neg, .cnot, .popcount, .bitrev]

/-- R73's lookup, with no answer where R72's table would have none. -/
def mnemLookup (fn rnumb : Nibble) : Option Mnemonic :=
  if fn = 0 then subMnemonics[rnumb.toNat]? else baseMnemonics[fn.toNat - 1]?

/-- `mnem(fn, rnumb)` of R73. An unmapped opcode value would be "no operation" (R133); there is none (R77). -/
def mnem (fn rnumb : Nibble) : Mnemonic := (mnemLookup fn rnumb).getD .nop

/-- The mnemonic of a stage's resident fields, `mnem(f.fn, f.rnumb)` (R120). -/
def Fields.mnem (f : Fields) : Mnemonic := Sys2Proof.mnem f.fn f.rnumb

/-! ### Decoding -/

/-- The instruction of a word. Total: every word decodes (R71, R77). -/
def decodeWord (w : Word) : Instr :=
  let f := fieldsOf w
  match f.mnem with
  | .nop => .nop f.rnumc f.rnuma
  | .ldmem => .ldmem f.rnumc f.rnuma
  | .stmem => .stmem f.rnumc f.rnuma
  | .call => .call f.rnumc f.rnuma
  | .ret => .ret f.rnumc f.rnuma
  | .jump => .jump f.rnumc f.rnuma
  | .branch => .branch f.rnumc f.rnuma
  | .unassigned => if f.rnumb = 7 then .unassigned7 f.rnumc f.rnuma else .unassigned8 f.rnumc f.rnuma
  | .pop => .pop f.rnumc f.rnuma
  | .push => .push f.rnumc f.rnuma
  | .not => .not f.rnumc f.rnuma
  | .neg => .neg f.rnumc f.rnuma
  | .cnot => .cnot f.rnumc f.rnuma
  | .popcount => .popcount f.rnumc f.rnuma
  | .bitrev => .bitrev f.rnumc f.rnuma
  | .add => .add f.rnumc f.rnumb f.rnuma
  | .sub => .sub f.rnumc f.rnumb f.rnuma
  | .mul => .mul f.rnumc f.rnumb f.rnuma
  | .div => .div f.rnumc f.rnumb f.rnuma
  | .xor => .xor f.rnumc f.rnumb f.rnuma
  | .and => .and f.rnumc f.rnumb f.rnuma
  | .or => .or f.rnumc f.rnumb f.rnuma
  | .shl => .shl f.rnumc f.rnumb f.rnuma
  | .shr => .shr f.rnumc f.rnumb f.rnuma
  | .lt => .lt f.rnumc f.rnumb f.rnuma
  | .le => .le f.rnumc f.rnumb f.rnuma
  | .cmove => .cmove f.rnumc f.rnumb f.rnuma
  | .cadd => .cadd f.rnumc f.rnumb f.rnuma
  | .immlow => .immlow f.rnumc f.data
  | .immhigh => .immhigh f.rnumc f.data

/-- Why a list of cells is not read as an instruction. Only one reason exists: no word is illegal (R77). -/
inductive DecodeReject where
  /-- There is no cell to read. -/
  | noWord
deriving DecidableEq, Repr

/-- The answer of `decode`: an instruction and the cells after it, or a rejection by name. -/
inductive Decoded where
  | instr (i : Instr) (rest : List Word)
  | rejected (why : DecodeReject)
deriving DecidableEq, Repr

/-- Decoding a list of cells: every instruction is exactly one cell (R79). -/
def decode : List Word → Decoded
  | [] => .rejected .noWord
  | w :: rest => .instr (decodeWord w) rest

/-- The cells of an instruction given as the number `w` of `nbits` bits, bit 0 the least significant of the first cell;
never fewer than one cell, bits above `nbits` zero. -/
def tableCells (nbits w : Nat) : List Word :=
  (List.range (max 1 ((nbits + 15) / 16))).map fun k => BitVec.ofNat 16 (w % 2 ^ nbits / 2 ^ (16 * k))

/-- The instruction the decoder reads from an opcode-table word: exactly one, with no cell left over. -/
def decodeTableWord (nbits w : Nat) : Option Instr :=
  match decode (tableCells nbits w) with
  | .instr i [] => some i
  | .instr _ (_ :: _) => none
  | .rejected _ => none

/-! ### Encoding (R80) -/

/-- `enc_base(fn, c, b, a)` of R80. -/
def encBase (fn c b a : Nibble) : Word := fn ++ c ++ b ++ a

/-- `enc_imm(fn, c, imm8)` of R80. -/
def encImm (fn c : Nibble) (imm8 : Byte) : Word := fn ++ c ++ imm8

/-- `enc_sub(sub, c, a)` of R80. -/
def encSub (sub c a : Nibble) : Word := (0 : Nibble) ++ c ++ sub ++ a

/-- The word of an instruction, its numbers written from R72's table. -/
def encode : Instr → Word
  | .nop c a => encSub 0 c a
  | .ldmem c a => encSub 1 c a
  | .stmem c a => encSub 2 c a
  | .call c a => encSub 3 c a
  | .ret c a => encSub 4 c a
  | .jump c a => encSub 5 c a
  | .branch c a => encSub 6 c a
  | .unassigned7 c a => encSub 7 c a
  | .unassigned8 c a => encSub 8 c a
  | .pop c a => encSub 9 c a
  | .push c a => encSub 10 c a
  | .not c a => encSub 11 c a
  | .neg c a => encSub 12 c a
  | .cnot c a => encSub 13 c a
  | .popcount c a => encSub 14 c a
  | .bitrev c a => encSub 15 c a
  | .add c b a => encBase 1 c b a
  | .sub c b a => encBase 2 c b a
  | .mul c b a => encBase 3 c b a
  | .div c b a => encBase 4 c b a
  | .xor c b a => encBase 5 c b a
  | .and c b a => encBase 6 c b a
  | .or c b a => encBase 7 c b a
  | .shl c b a => encBase 8 c b a
  | .shr c b a => encBase 9 c b a
  | .lt c b a => encBase 10 c b a
  | .le c b a => encBase 11 c b a
  | .cmove c b a => encBase 12 c b a
  | .cadd c b a => encBase 13 c b a
  | .immlow c imm => encImm 14 c imm
  | .immhigh c imm => encImm 15 c imm

/-- The words of an instruction: one (R79). -/
def encodeWords (i : Instr) : List Word := [encode i]

/-- The fields of an instruction's word (R70). -/
def Instr.fields (i : Instr) : Fields := fieldsOf (encode i)

/-! ### Match and mask (R74) -/

/-- One row of the opcode table: a word `w` is the row's when `w & mask = pattern` (R74). -/
structure OpcodeRow where
  mnemonic : Mnemonic
  mask : Word
  pattern : Word
deriving DecidableEq, Repr

/-- Whether a word belongs to a row (R74). -/
def OpcodeRow.holds (r : OpcodeRow) (w : Word) : Bool := w &&& r.mask == r.pattern

/-- The 31 rows of `spec/opcode_table.json`, their masks and patterns as the table writes them. -/
def opcodeRows : List OpcodeRow :=
  [⟨.nop, 0xF0F0, 0x0000⟩, ⟨.ldmem, 0xF0F0, 0x0010⟩, ⟨.stmem, 0xF0F0, 0x0020⟩, ⟨.call, 0xF0F0, 0x0030⟩,
    ⟨.ret, 0xF0F0, 0x0040⟩, ⟨.jump, 0xF0F0, 0x0050⟩, ⟨.branch, 0xF0F0, 0x0060⟩, ⟨.unassigned, 0xF0F0, 0x0070⟩,
    ⟨.unassigned, 0xF0F0, 0x0080⟩, ⟨.pop, 0xF0F0, 0x0090⟩, ⟨.push, 0xF0F0, 0x00A0⟩, ⟨.not, 0xF0F0, 0x00B0⟩,
    ⟨.neg, 0xF0F0, 0x00C0⟩, ⟨.cnot, 0xF0F0, 0x00D0⟩, ⟨.popcount, 0xF0F0, 0x00E0⟩, ⟨.bitrev, 0xF0F0, 0x00F0⟩] ++
  [⟨.add, 0xF000, 0x1000⟩, ⟨.sub, 0xF000, 0x2000⟩, ⟨.mul, 0xF000, 0x3000⟩, ⟨.div, 0xF000, 0x4000⟩,
    ⟨.xor, 0xF000, 0x5000⟩, ⟨.and, 0xF000, 0x6000⟩, ⟨.or, 0xF000, 0x7000⟩, ⟨.shl, 0xF000, 0x8000⟩,
    ⟨.shr, 0xF000, 0x9000⟩, ⟨.lt, 0xF000, 0xA000⟩, ⟨.le, 0xF000, 0xB000⟩, ⟨.cmove, 0xF000, 0xC000⟩,
    ⟨.cadd, 0xF000, 0xD000⟩, ⟨.immlow, 0xF000, 0xE000⟩, ⟨.immhigh, 0xF000, 0xF000⟩]

end Sys2Proof
end

