-- ==== Sys2Proof/Machine/Flags.lean ====
section
/-! DEFINITION. Conditions. The hardware has no flags, condition codes or predicate registers (R25), so there is no flag
computation. Conditions are read from general registers (`branch`, `cmove`, `cadd`, `cnot`) and results that are Booleans
are written to them (`cnot`, `lt`, `le`). -/

namespace Sys2Proof.Machine

/-- A register value taken as a condition: true when it is not `0x0000` (R146, R190). -/
def truthy (v : Word) : Bool := v != 0

/-- A Boolean stored in 16 bits: `0x0001` or `0x0000` (R11). -/
def boolWord (b : Bool) : Word := if b then 1 else 0

end Sys2Proof.Machine
end

