-- ==== Sys2Proof/Machine/Alu.lean ====
section
/-! DEFINITION. The shared ALU (R100 to R102): one total function for both models (R101). Each mnemonic's formula is a
definition of its own, in the words of its rule. -/

namespace Sys2Proof.Machine

/-! ### Arithmetic, logic and compare: `B op A` (R170 to R181) -/

/-- R171: `B + A` modulo 2^16. -/
def aluAdd (B A : Word) : Word := B + A

/-- R172: `B - A` modulo 2^16. -/
def aluSub (B A : Word) : Word := B - A

/-- R173: the low 16 bits of the signed product (D6). -/
def aluMul (B A : Word) : Word := trunc16 (s16 B * s16 A)

/-- R174: the signed quotient rounded toward zero; open when the divisor is zero (D6, D7). -/
def aluDiv (B A : Word) : Word :=
  if A = 0 then Config.divZero B else trunc16 ((s16 B).tdiv (s16 A))

/-- R175. -/
def aluXor (B A : Word) : Word := B ^^^ A

/-- R176. -/
def aluAnd (B A : Word) : Word := B &&& A

/-- R177. -/
def aluOr (B A : Word) : Word := B ||| A

/-- R178: shift left by a signed amount 0..15; open otherwise (D6, D8). -/
def aluShl (B A : Word) : Word :=
  if 0 ≤ s16 A ∧ s16 A ≤ 15 then trunc16 ((u16 B : Int) * 2 ^ (s16 A).toNat)
  else Config.shiftOOR .shl B A

/-- R179: arithmetic shift right by a signed amount 0..15, the floor of the quotient; open otherwise (D6, D8). -/
def aluShr (B A : Word) : Word :=
  if 0 ≤ s16 A ∧ s16 A ≤ 15 then trunc16 ((s16 B).fdiv (2 ^ (s16 A).toNat))
  else Config.shiftOOR .shr B A

/-- R180: signed less-than. -/
def aluLt (B A : Word) : Word := boolWord (decide (s16 B < s16 A))

/-- R181: signed less-or-equal. -/
def aluLe (B A : Word) : Word := boolWord (decide (s16 B ≤ s16 A))

/-! ### Bitwise, unary (R160 to R165) -/

/-- R161: all 16 bits inverted. -/
def aluNot (A : Word) : Word := ~~~A

/-- R162: `trunc16(-s16(A))`. -/
def aluNeg (A : Word) : Word := trunc16 (-(s16 A))

/-- R163: logical not. -/
def aluCnot (A : Word) : Word := boolWord (!truthy A)

/-- R164: the number of 1 bits among `A[15:0]`. -/
def aluPopcount (A : Word) : Word :=
  BitVec.ofNat 16 ((List.range 16).foldl (fun n i => n + (A.getLsbD i).toNat) 0)

/-- R165: `r[i] = A[15 - i]` for i = 0..15. -/
def aluBitrev (A : Word) : Word :=
  BitVec.ofNat 16 ((List.range 16).foldl (fun n i => n + (A.getLsbD (15 - i)).toNat * 2 ^ i) 0)

/-! ### Conditional and immediate (R190 to R197) -/

/-- R191. -/
def aluCmove (B A C : Word) : Word := if truthy B then A else C

/-- R192. -/
def aluCadd (B A C : Word) : Word := if truthy B then C + A else C

/-- R196: bits 7..0 become `data`, bits 15..8 of `C` are kept; `data` is never sign-extended (R76). -/
def aluImmlow (C : Word) (data : Byte) : Word := (C &&& 0xFF00) ||| data.zeroExtend 16

/-- R197: bits 15..8 become `data`, bits 7..0 of `C` are kept. -/
def aluImmhigh (C : Word) (data : Byte) : Word := (data.zeroExtend 16 <<< 8) ||| (C &&& 0x00FF)

/-! ### Memory and control transfer (R140 to R148): addresses and offsets (D4) -/

/-- R145: the relative target `P + A`. -/
def aluJump (A P : Word) : Word := P + A

/-- R146: the target when `C` is non-zero, else the sequential successor. -/
def aluBranch (A C P : Word) : Word := if truthy C then P + A else P

/-- R147: the pointer after a pop. -/
def aluPop (A : Word) : Word := A + 1

/-- R148: the pointer after a push, and the address pushed to. -/
def aluPush (A : Word) : Word := A - 1

/-! ### The table -/

/-- `ALU(m, valA, valB, valC, data, valP)` of R100. -/
def alu (m : Mnemonic) (A B C : Word) (data : Byte) (P : Word) : Word :=
  match m with
  | .nop => 0
  | .unassigned => 0
  | .ldmem => A
  | .stmem => C
  | .call => A
  | .ret => A
  | .jump => aluJump A P
  | .branch => aluBranch A C P
  | .pop => aluPop A
  | .push => aluPush A
  | .not => aluNot A
  | .neg => aluNeg A
  | .cnot => aluCnot A
  | .popcount => aluPopcount A
  | .bitrev => aluBitrev A
  | .add => aluAdd B A
  | .sub => aluSub B A
  | .mul => aluMul B A
  | .div => aluDiv B A
  | .xor => aluXor B A
  | .and => aluAnd B A
  | .or => aluOr B A
  | .shl => aluShl B A
  | .shr => aluShr B A
  | .lt => aluLt B A
  | .le => aluLe B A
  | .cmove => aluCmove B A C
  | .cadd => aluCadd B A C
  | .immlow => aluImmlow C data
  | .immhigh => aluImmhigh C data

end Sys2Proof.Machine
end

