-- ==== Sys2Proof/Machine/ControlUnit.lean ====
section
/-! DEFINITION. The ControlUnit (R120 to R130): stateless signal tables, each a function of one resident instruction's
mnemonic (and, for `destRegisterIndex`, its register fields). Every table lists all 30 mnemonics. -/

namespace Sys2Proof.Machine

/-- The values of `pcSource` (R121). -/
inductive PcSource where
  | sequential | aluResult | memValue | valC
deriving DecidableEq, Repr

/-- The values of `memoryAccessKind` (R123); `none` is the spec's None. -/
inductive AccessKind where
  | read | write | none
deriving DecidableEq, Repr

/-- The values of `addressSource` (R124). -/
inductive AddressSource where
  | aluResult | valA
deriving DecidableEq, Repr

/-- The values of `memoryWriteDataSource` (R125). -/
inductive WriteDataSource where
  | valA | valC | valP
deriving DecidableEq, Repr

/-- The values of `destRegisterIndex` (R126). -/
inductive DestIndex where
  | rnuma | rnumc
deriving DecidableEq, Repr

/-- R121, keyed by WriteBack: "call→valC; return→memValue; jump/branch→aluResult; else sequential". -/
def pcSource : Mnemonic → PcSource
  | .call => .valC
  | .ret => .memValue
  | .jump | .branch => .aluResult
  | .nop | .ldmem | .stmem | .unassigned | .pop | .push | .not | .neg | .cnot | .popcount | .bitrev
  | .add | .sub | .mul | .div | .xor | .and | .or | .shl | .shr | .lt | .le
  | .cmove | .cadd | .immlow | .immhigh => .sequential

/-- R122, keyed by Decode: true for `unassigned` only (D12). -/
def bubbleInsert : Mnemonic → Bool
  | .unassigned => true
  | .nop | .ldmem | .stmem | .call | .ret | .jump | .branch | .pop | .push
  | .not | .neg | .cnot | .popcount | .bitrev
  | .add | .sub | .mul | .div | .xor | .and | .or | .shl | .shr | .lt | .le
  | .cmove | .cadd | .immlow | .immhigh => false

/-- R123, keyed by Memory; `return` reads (C2). -/
def memoryAccessKind : Mnemonic → AccessKind
  | .ldmem | .pop | .ret => .read
  | .stmem | .call | .push => .write
  | .nop | .jump | .branch | .unassigned | .not | .neg | .cnot | .popcount | .bitrev
  | .add | .sub | .mul | .div | .xor | .and | .or | .shl | .shr | .lt | .le
  | .cmove | .cadd | .immlow | .immhigh => .none

/-- R124, keyed by Memory: "return,pop→valA; else aluResult". -/
def addressSource : Mnemonic → AddressSource
  | .ret | .pop => .valA
  | .nop | .ldmem | .stmem | .call | .jump | .branch | .unassigned | .push
  | .not | .neg | .cnot | .popcount | .bitrev
  | .add | .sub | .mul | .div | .xor | .and | .or | .shl | .shr | .lt | .le
  | .cmove | .cadd | .immlow | .immhigh => .aluResult

/-- R125, keyed by Memory: "stmem→valA; push→valC; call→valP; else valA". -/
def memoryWriteDataSource : Mnemonic → WriteDataSource
  | .push => .valC
  | .call => .valP
  | .nop | .ldmem | .stmem | .ret | .jump | .branch | .unassigned | .pop
  | .not | .neg | .cnot | .popcount | .bitrev
  | .add | .sub | .mul | .div | .xor | .and | .or | .shl | .shr | .lt | .le
  | .cmove | .cadd | .immlow | .immhigh => .valA

/-- R126, keyed by WriteBack: "call,return,pop,push→rnuma; else rnumc". -/
def destRegisterIndex : Mnemonic → DestIndex
  | .call | .ret | .pop | .push => .rnuma
  | .nop | .ldmem | .stmem | .jump | .branch | .unassigned | .not | .neg | .cnot | .popcount | .bitrev
  | .add | .sub | .mul | .div | .xor | .and | .or | .shl | .shr | .lt | .le
  | .cmove | .cadd | .immlow | .immhigh => .rnumc

/-- R127, keyed by WriteBack: "true for ldmem, pop". It writes `rnumc` (D10). -/
def memoryWriteBackEnable : Mnemonic → Bool
  | .ldmem | .pop => true
  | .nop | .stmem | .call | .ret | .jump | .branch | .unassigned | .push
  | .not | .neg | .cnot | .popcount | .bitrev
  | .add | .sub | .mul | .div | .xor | .and | .or | .shl | .shr | .lt | .le
  | .cmove | .cadd | .immlow | .immhigh => false

/-- R128, keyed by WriteBack; `ldmem` is false (C1, D11), `nop` is false (D12). -/
def aluWriteBackEnable : Mnemonic → Bool
  | .nop | .ldmem | .stmem | .call | .ret | .jump | .branch | .unassigned => false
  | .pop | .push | .not | .neg | .cnot | .popcount | .bitrev
  | .add | .sub | .mul | .div | .xor | .and | .or | .shl | .shr | .lt | .le
  | .cmove | .cadd | .immlow | .immhigh => true

/-- `dest(f)` of R126 as a register number, for a mnemonic and its two candidate fields. -/
def destOf (m : Mnemonic) (rnumc rnuma : RegNum) : RegNum :=
  match destRegisterIndex m with
  | .rnuma => rnuma
  | .rnumc => rnumc

/-- `dest(f)` of R126 for the fields of a resident instruction. -/
def destOfFields (f : Fields) : RegNum := destOf f.mnem f.rnumc f.rnuma

/-- The unit's outputs (R120). -/
structure ControlOutputs where
  pcSource : PcSource
  bubbleInsert : Bool
  memoryAccessKind : AccessKind
  addressSource : AddressSource
  memoryWriteDataSource : WriteDataSource
  destRegisterIndex : RegNum
  memoryWriteBackEnable : Bool
  aluWriteBackEnable : Bool
deriving DecidableEq, Repr

/-- The unit (R120): inputs `W_fields`, `D_fields`, `M_fields`, each output keyed to its stage. -/
def controlUnit (w d m : Fields) : ControlOutputs :=
  { pcSource := pcSource w.mnem
    bubbleInsert := bubbleInsert d.mnem
    memoryAccessKind := memoryAccessKind m.mnem
    addressSource := addressSource m.mnem
    memoryWriteDataSource := memoryWriteDataSource m.mnem
    destRegisterIndex := destOfFields w
    memoryWriteBackEnable := memoryWriteBackEnable w.mnem
    aluWriteBackEnable := aluWriteBackEnable w.mnem }

/-! ### The complete table (R130) -/

/-- One row of R130's table. -/
structure ControlRow where
  pcSource : PcSource
  bubbleInsert : Bool
  memoryAccessKind : AccessKind
  addressSource : AddressSource
  memoryWriteDataSource : WriteDataSource
  destRegisterIndex : DestIndex
  memoryWriteBackEnable : Bool
  aluWriteBackEnable : Bool
deriving DecidableEq, Repr

/-- The row an unmapped opcode value would have, "no operation, no side effect" (R133). No word reaches it (R77). -/
def defaultRow : ControlRow := ⟨.sequential, false, .none, .aluResult, .valA, .rnumc, false, false⟩

/-- The row of the 21 mnemonics that only write an ALU result to `rnumc`, less `pop` and `push` (R130). -/
def aluRow : ControlRow := ⟨.sequential, false, .none, .aluResult, .valA, .rnumc, false, true⟩

/-- R130, written row by row from its table; `none` stands for an unmapped opcode value (R133). -/
def controlTable : Option Mnemonic → ControlRow
  | none => defaultRow
  | some .nop => ⟨.sequential, false, .none, .aluResult, .valA, .rnumc, false, false⟩
  | some .ldmem => ⟨.sequential, false, .read, .aluResult, .valA, .rnumc, true, false⟩
  | some .stmem => ⟨.sequential, false, .write, .aluResult, .valA, .rnumc, false, false⟩
  | some .call => ⟨.valC, false, .write, .aluResult, .valP, .rnuma, false, false⟩
  | some .ret => ⟨.memValue, false, .read, .valA, .valA, .rnuma, false, false⟩
  | some .jump => ⟨.aluResult, false, .none, .aluResult, .valA, .rnumc, false, false⟩
  | some .branch => ⟨.aluResult, false, .none, .aluResult, .valA, .rnumc, false, false⟩
  | some .unassigned => ⟨.sequential, true, .none, .aluResult, .valA, .rnumc, false, false⟩
  | some .pop => ⟨.sequential, false, .read, .valA, .valA, .rnuma, true, true⟩
  | some .push => ⟨.sequential, false, .write, .aluResult, .valC, .rnuma, false, true⟩
  | some .not | some .neg | some .cnot | some .popcount | some .bitrev => aluRow
  | some .add | some .sub | some .mul | some .div | some .xor | some .and | some .or | some .shl
  | some .shr | some .lt | some .le => aluRow
  | some .cmove | some .cadd => aluRow
  | some .immlow | some .immhigh => aluRow

end Sys2Proof.Machine
end

