-- ==== Sys2Proof/Machine/State.lean ====
section
/-! DEFINITION. The state of the hardware: the two independent machine states of R20, as plain data, and reset (R35, R330). -/

namespace Sys2Proof.Machine

/-! ### Registers and memory -/

/-- The 16 general registers (R21). None is hardwired, aliased or banked. -/
abbrev RegFile := Vector Word 16

/-- One machine's memory (R50): a list of (word index, cell) pairs. A cell is 16 bits, the only unit R53 gives memory
(assumption 2). A cell that is not listed reads as `unlistedCell`. Canonical form: `Memory.wf`. -/
abbrev Memory := List (Nat × Word)

/-- What a cell reads as that neither the image nor a store has set: `0x0000` (R35, R330). -/
def unlistedCell : Word := 0

/-- The number of cells (R7 `MEMWORDS`, R50). -/
def memWords : Nat := 65536

/-- The canonical form: word indices strictly rising, each below 65536, and no listed cell equal to an unlisted one. -/
abbrev Memory.wf (m : Memory) : Prop :=
  m.Pairwise (fun x y => x.1 < y.1) ∧ ∀ c ∈ m, c.1 < memWords ∧ c.2 ≠ unlistedCell

/-- `RefState` of R20: the reference interpreter's state, all of it (R253). -/
structure RefState where
  /-- `reg` (R21). -/
  reg : RegFile
  /-- `mem` (R50). -/
  mem : Memory
  /-- `pc`: the word address of the instruction to execute (R23). -/
  pc : Word
deriving DecidableEq, Repr

/-! ### Pipeline registers (R28 to R31) -/

/-- A pipeline register is a current/next pair (R28, R31). -/
structure Latch (α : Type) where
  cur : α
  next : α
deriving DecidableEq, Repr

/-- `F` (R28, R30): the word address the next sequential fetch reads. -/
structure FReg where
  pc : Word
deriving DecidableEq, Repr

/-- `D` (R28, R30): the fetched fields and the address of the resident instruction plus one. -/
structure DReg where
  f : Fields
  valP : Word
deriving DecidableEq, Repr

/-- `E` (R28, R30): the fields, the three register values, the immediate and `valP`. -/
structure EReg where
  f : Fields
  valA : Word
  valB : Word
  valC : Word
  data : Byte
  valP : Word
deriving DecidableEq, Repr

/-- `M` (R28, R30): the fields, the ALU output, `valC`, the bypassed `valA` and `valP`. -/
structure MReg where
  f : Fields
  aluResult : Word
  valC : Word
  valA : Word
  valP : Word
deriving DecidableEq, Repr

/-- `W` (R28, R30): the fields, the ALU output, the word the Memory stage read or zero, and `valC`. -/
structure WReg where
  f : Fields
  aluResult : Word
  memValue : Word
  valC : Word
deriving DecidableEq, Repr

/-- `PipeState` of R20: the pipelined datapath's state. -/
structure PipeState where
  /-- `pipe_reg` (R21). -/
  reg : RegFile
  /-- `pipe_mem` (R50). -/
  mem : Memory
  F : Latch FReg
  D : Latch DReg
  E : Latch EReg
  M : Latch MReg
  W : Latch WReg
deriving DecidableEq, Repr

/-- `pipe_pc` (R33): the pipeline's only program counter. -/
def PipeState.pc (p : PipeState) : Word := p.F.cur.pc

/-! ### The whole machine -/

/-- The hardware's two machine states (R20). They share nothing. -/
structure State where
  ref : RefState
  pipe : PipeState
deriving DecidableEq, Repr

/-- The reasons a step can stop with a fault: none. The hardware raises no exception (R300, R301), every address and pc
value is valid (R24, R51) and each call runs to completion (R303). Safe: no behaviour of the hardware is cut off. -/
inductive Fault where
deriving DecidableEq, Repr

/-- The reasons a step can be refused. -/
inductive Refusal where
  /-- Raised by an arm of `exec` whose instruction has no meaning yet. Safe: the model stops where the hardware goes on.
  No arm raises it: every row of the opcode table has its meaning. -/
  | notModelled (mnemonic : String)
deriving DecidableEq, Repr

/-- The answer of a step or of an instruction's meaning. -/
abbrev Outcome := Host.Outcome State Fault Refusal

/-! ### Named updates -/

def State.withRef (s : State) (r : RefState) : State := { s with ref := r }
def State.withPipe (s : State) (p : PipeState) : State := { s with pipe := p }

def PipeState.withReg (p : PipeState) (x : RegFile) : PipeState := { p with reg := x }
def PipeState.withMem (p : PipeState) (m : Memory) : PipeState := { p with mem := m }
/-- `F.next <- v`. -/
def PipeState.nextF (p : PipeState) (v : FReg) : PipeState := { p with F := { p.F with next := v } }
/-- `D.next <- v`. -/
def PipeState.nextD (p : PipeState) (v : DReg) : PipeState := { p with D := { p.D with next := v } }
/-- `E.next <- v`. -/
def PipeState.nextE (p : PipeState) (v : EReg) : PipeState := { p with E := { p.E with next := v } }
/-- `M.next <- v`. -/
def PipeState.nextM (p : PipeState) (v : MReg) : PipeState := { p with M := { p.M with next := v } }
/-- `W.next <- v`. -/
def PipeState.nextW (p : PipeState) (v : WReg) : PipeState := { p with W := { p.W with next := v } }

/-- The state with another `valA` in the Memory-resident instruction's register. No stage writes it so: it says what a
statement compares a state with (R204). -/
def PipeState.withMemoryValA (p : PipeState) (v : Word) : PipeState :=
  { p with M := { p.M with cur := { p.M.cur with valA := v } } }

/-- `X.cur <- X.next` for one pipeline register (R230). -/
def Latch.swap {α : Type} (l : Latch α) : Latch α := { cur := l.next, next := l.next }

/-- The atomic swap of all five pipeline registers (R230, R232). -/
def PipeState.swap (p : PipeState) : PipeState :=
  { p with F := p.F.swap, D := p.D.swap, E := p.E.swap, M := p.M.swap, W := p.W.swap }

/-! ### Reset (R35, R36, R330) -/

/-- Every register zero (R35, D18). -/
def RegFile.zero : RegFile := Vector.replicate 16 0

/-- Fields all zero: the bubble (R36). -/
def bubbleFields : Fields := { fn := 0, rnumc := 0, rnumb := 0, rnuma := 0 }

/-- A latch at reset: `cur` zero (R35); `next` has no reset value in the spec and is set to the same
(DESIGN CHOICE, assumption 3: no stage reads it before cycle 1 writes it). -/
def Latch.reset {α : Type} (zero : α) : Latch α := { cur := zero, next := zero }

/-- The reference state at reset over a loaded memory (R35). -/
def RefState.resetWith (m : Memory) : RefState := { reg := RegFile.zero, mem := m, pc := 0 }

/-- The pipeline state at reset over a loaded memory (R35, R36): fetching from word 0, bubbles in D, E, M and W. -/
def PipeState.resetWith (m : Memory) : PipeState :=
  { reg := RegFile.zero
    mem := m
    F := Latch.reset { pc := 0 }
    D := Latch.reset { f := bubbleFields, valP := 0 }
    E := Latch.reset { f := bubbleFields, valA := 0, valB := 0, valC := 0, data := 0, valP := 0 }
    M := Latch.reset { f := bubbleFields, aluResult := 0, valC := 0, valA := 0, valP := 0 }
    W := Latch.reset { f := bubbleFields, aluResult := 0, memValue := 0, valC := 0 } }

/-- Both models at reset over the same loaded memory (R330, R331). -/
def State.resetWith (m : Memory) : State := { ref := RefState.resetWith m, pipe := PipeState.resetWith m }

/-- The machine right after reset, no image loaded: every cell reads `0x0000` (R35). -/
def State.reset : State := State.resetWith []

end Sys2Proof.Machine
end

