-- ==== Sys2Proof/Machine/Operands.lean ====
section
/-! DEFINITION. Register access and the operands of an instruction (R21, R22, R75, R100 to R103). The forms of R75 differ
only in which of these values the ALU uses; every instruction reads all three registers (R22). -/

namespace Sys2Proof.Machine

/-- `x[i]` (R12, R21). -/
def RegFile.read (x : RegFile) (i : RegNum) : Word := x[i.toNat]'(i.isLt)

/-- `x[i] <- v` (R12, R21). -/
def RegFile.write (x : RegFile) (i : RegNum) (v : Word) : RegFile := x.set i.toNat v i.isLt

/-- The ALU's operand inputs (R100): three register values, the immediate and the address of the sequential successor. -/
structure Operands where
  valA : Word
  valB : Word
  valC : Word
  data : Byte
  valP : Word
deriving DecidableEq, Repr

/-- Operand fetch (R22, R100, R215, R250): `valA = x[rnuma]`, `valB = x[rnumb]`, `valC = x[rnumc]`,
`data = {rnumb, rnuma}`, and the given `valP` (R102). -/
def fetchOperands (x : RegFile) (rnumc rnumb rnuma : RegNum) (valP : Word) : Operands :=
  { valA := RegFile.read x rnuma
    valB := RegFile.read x rnumb
    valC := RegFile.read x rnumc
    data := rnumb ++ rnuma
    valP := valP }

end Sys2Proof.Machine
end

