-- ==== Sys2Proof/Machine/Ops.lean ====
section
/-! DEFINITION. The shared operations of both models: memory access (R12, R55, R131), write-back (R129), next-pc selection
(R132), and the one-instruction execution of the reference step (R250). The hardware has no exception, so there is no
exception entry and no return from one (R300, R304, R305). -/

namespace Sys2Proof.Machine

/-! ### Memory (R50 to R56) -/

/-- The cell at a word index: the first entry listed for it, else `unlistedCell`. -/
def Memory.readCell : Memory → Nat → Word
  | [], _ => unlistedCell
  | (b, v) :: m, a => if b = a then v else Memory.readCell m a

/-- The memory with a new entry put before the first entry of a higher index. -/
def Memory.insertCell : Memory → Nat → Word → Memory
  | [], a, v => [(a, v)]
  | (b, w) :: m, a, v => if a < b then (a, v) :: (b, w) :: m else (b, w) :: Memory.insertCell m a v

/-- The memory without entries for a word index. -/
def Memory.eraseCell (m : Memory) (a : Nat) : Memory := m.filter fun c => c.1 != a

/-- The memory with a cell replaced; a cell equal to an unlisted one is not listed. -/
def Memory.writeCell (m : Memory) (a : Nat) (v : Word) : Memory :=
  if v = unlistedCell then Memory.eraseCell m a else Memory.insertCell (Memory.eraseCell m a) a v

/-- `MemRead(addr, 1)` (R12, R51): the cell at word index `u16(addr)`. -/
def Memory.read (m : Memory) (addr : Word) : Word := Memory.readCell m (u16 addr)

/-- `MemWrite(addr, 1, v)` (R12, R51, R55). -/
def Memory.write (m : Memory) (addr v : Word) : Memory := Memory.writeCell m (u16 addr) v

/-! ### Functions built from the control signals (R129, R131, R132) -/

/-- The address of a data access (R131): `valA` or the ALU result, as `addressSource` says. -/
def accessAddress (m : Mnemonic) (aluResult valA : Word) : Word :=
  match addressSource m with
  | .valA => valA
  | .aluResult => aluResult

/-- The data of a memory write (R131), as `memoryWriteDataSource` says. -/
def accessData (m : Mnemonic) (valA valC valP : Word) : Word :=
  match memoryWriteDataSource m with
  | .valA => valA
  | .valC => valC
  | .valP => valP

/-- `memAccess` of R131: the `memValue` it returns and the memory after it. A Write and None return `0x0000` (D20). -/
def memAccess (m : Mnemonic) (aluResult valA valC valP : Word) (mem : Memory) : Word × Memory :=
  match memoryAccessKind m with
  | .read => (Memory.read mem (accessAddress m aluResult valA), mem)
  | .write => (0, Memory.write mem (accessAddress m aluResult valA) (accessData m valA valC valP))
  | .none => (0, mem)

/-- `commitWB` of R129: the memory value to `rnumc` first, the ALU result to `dest(f)` second. -/
def commitWB (m : Mnemonic) (rnumc rnuma : RegNum) (aluResult memValue : Word) (x : RegFile) : RegFile :=
  let x1 := if memoryWriteBackEnable m then RegFile.write x rnumc memValue else x
  if aluWriteBackEnable m then RegFile.write x1 (destOf m rnumc rnuma) aluResult else x1

/-- `pcSelect` of R132. -/
def pcSelect (m : Mnemonic) (seqPc aluResult memValue valC : Word) : Word :=
  match pcSource m with
  | .sequential => seqPc
  | .aluResult => aluResult
  | .memValue => memValue
  | .valC => valC

/-! ### One instruction in the reference interpreter (R250) -/

/-- The body of `ref_step` (R250) for an instruction given by mnemonic and register fields: operands are read before any
write, the access comes before the write-back, and the pc is selected from values of the same step (R251). -/
def refExecute (m : Mnemonic) (rnumc rnumb rnuma : RegNum) (r : RefState) : RefState :=
  let o := fetchOperands r.reg rnumc rnumb rnuma (r.pc + 1)
  let result := alu m o.valA o.valB o.valC o.data o.valP
  let access := memAccess m result o.valA o.valC o.valP r.mem
  { reg := commitWB m rnumc rnuma result access.1 r.reg
    mem := access.2
    pc := pcSelect m o.valP result access.1 o.valC }

/-- An instruction's meaning: it executes in the reference interpreter, which defines the architectural meaning of every
instruction, and always completes (R250, R303). The pipeline is not touched: it reaches the same effect through its own
clock (`pipeStep`), by the same shared tables (R101). -/
def executed (m : Mnemonic) (rnumc rnumb rnuma : RegNum) (s : State) : Outcome :=
  .next (s.withRef (refExecute m rnumc rnumb rnuma s.ref))

/-- `ref_step` of R250, from the raw fields of the word at `pc`. -/
def refStep (r : RefState) : RefState :=
  let f := fieldsOf (Memory.read r.mem r.pc)
  refExecute f.mnem f.rnumc f.rnumb f.rnuma r

end Sys2Proof.Machine
end

