-- ==== Sys2Proof/Machine/Arithmetic.lean ====
section
/-! DEFINITION. The arithmetic, logic and compare family (`44_arith_logic_compare_family.md`). Each meaning is R250 applied to the mnemonic: the
ALU result of its rule, routed by its row of the control table (R130). In the docstrings `A`, `B`, `C` are `x[rnuma]`,
`x[rnumb]`, `x[rnumc]` and `P` is `pc + 1`, all read before any write (R106, R251). -/

namespace Sys2Proof.Machine

/-- R171 `add rC, rB, rA`: `x[rnumc] <- B + A; pc <- P`. -/
def execAdd (rC rB rA : RegNum) (s : State) : Outcome := executed .add rC rB rA s

/-- R172 `sub rC, rB, rA`: `x[rnumc] <- B - A; pc <- P`. -/
def execSub (rC rB rA : RegNum) (s : State) : Outcome := executed .sub rC rB rA s

/-- R173 `mul rC, rB, rA`: `x[rnumc] <- trunc16(s16(B) * s16(A)); pc <- P`. -/
def execMul (rC rB rA : RegNum) (s : State) : Outcome := executed .mul rC rB rA s

/-- R174 `div rC, rB, rA`: the truncating signed quotient, or `cfg.divZero(B)`; `pc <- P`. -/
def execDiv (rC rB rA : RegNum) (s : State) : Outcome := executed .div rC rB rA s

/-- R175 `xor rC, rB, rA`: `x[rnumc] <- B ^ A; pc <- P`. -/
def execXor (rC rB rA : RegNum) (s : State) : Outcome := executed .xor rC rB rA s

/-- R176 `and rC, rB, rA`: `x[rnumc] <- B & A; pc <- P`. -/
def execAnd (rC rB rA : RegNum) (s : State) : Outcome := executed .and rC rB rA s

/-- R177 `or rC, rB, rA`: `x[rnumc] <- B | A; pc <- P`. -/
def execOr (rC rB rA : RegNum) (s : State) : Outcome := executed .or rC rB rA s

/-- R178 `shl rC, rB, rA`: shift left, or `cfg.shiftOOR(shl, B, A)`; `pc <- P`. -/
def execShl (rC rB rA : RegNum) (s : State) : Outcome := executed .shl rC rB rA s

/-- R179 `shr rC, rB, rA`: arithmetic shift right, or `cfg.shiftOOR(shr, B, A)`; `pc <- P`. -/
def execShr (rC rB rA : RegNum) (s : State) : Outcome := executed .shr rC rB rA s

/-- R180 `lt rC, rB, rA`: `x[rnumc] <- (s16(B) < s16(A)) ? 1 : 0; pc <- P`. -/
def execLt (rC rB rA : RegNum) (s : State) : Outcome := executed .lt rC rB rA s

/-- R181 `le rC, rB, rA`: `x[rnumc] <- (s16(B) <= s16(A)) ? 1 : 0; pc <- P`. -/
def execLe (rC rB rA : RegNum) (s : State) : Outcome := executed .le rC rB rA s

end Sys2Proof.Machine
end

