-- ==== Sys2Proof/Machine/Bitwise.lean ====
section
/-! DEFINITION. The bitwise, unary family (`43_bitwise_family.md`). Each meaning is R250 applied to the mnemonic: the
ALU result of its rule, routed by its row of the control table (R130). In the docstrings `A`, `B`, `C` are `x[rnuma]`,
`x[rnumb]`, `x[rnumc]` and `P` is `pc + 1`, all read before any write (R106, R251). -/

namespace Sys2Proof.Machine

/-- R161 `not rC, rA`: `x[rnumc] <- ~A; pc <- P`. -/
def execNot (rC rA : RegNum) (s : State) : Outcome := executed .not rC 11 rA s

/-- R162 `neg rC, rA`: `x[rnumc] <- -A; pc <- P`. -/
def execNeg (rC rA : RegNum) (s : State) : Outcome := executed .neg rC 12 rA s

/-- R163 `cnot rC, rA`: `x[rnumc] <- (A = 0) ? 1 : 0; pc <- P`. -/
def execCnot (rC rA : RegNum) (s : State) : Outcome := executed .cnot rC 13 rA s

/-- R164 `popcount rC, rA`: `x[rnumc] <- popcount(A); pc <- P`. -/
def execPopcount (rC rA : RegNum) (s : State) : Outcome := executed .popcount rC 14 rA s

/-- R165 `bitrev rC, rA`: `x[rnumc] <- bitrev(A); pc <- P`. -/
def execBitrev (rC rA : RegNum) (s : State) : Outcome := executed .bitrev rC 15 rA s

end Sys2Proof.Machine
end

