-- ==== Sys2Proof/Machine/Conditional.lean ====
section
/-! DEFINITION. The conditional family (`45_conditional_family.md`). Each meaning is R250 applied to the mnemonic: the
ALU result of its rule, routed by its row of the control table (R130). In the docstrings `A`, `B`, `C` are `x[rnuma]`,
`x[rnumb]`, `x[rnumc]` and `P` is `pc + 1`, all read before any write (R106, R251). -/

namespace Sys2Proof.Machine

/-- R191 `cmove rC, rB, rA`: `x[rnumc] <- (B != 0) ? A : C; pc <- P`. -/
def execCmove (rC rB rA : RegNum) (s : State) : Outcome := executed .cmove rC rB rA s

/-- R192 `cadd rC, rB, rA`: `x[rnumc] <- (B != 0) ? C + A : C; pc <- P`. -/
def execCadd (rC rB rA : RegNum) (s : State) : Outcome := executed .cadd rC rB rA s

end Sys2Proof.Machine
end

