-- ==== Sys2Proof/Machine/Immediate.lean ====
section
/-! DEFINITION. The immediate family (`46_immediate_family.md`). Each meaning is R250 applied to the mnemonic: the
ALU result of its rule, routed by its row of the control table (R130). In the docstrings `A`, `B`, `C` are `x[rnuma]`,
`x[rnumb]`, `x[rnumc]` and `P` is `pc + 1`, all read before any write (R106, R251).
The immediate occupies the `rnumb` and `rnuma` fields (R76). -/

namespace Sys2Proof.Machine

/-- R196 `immlow rC, imm8`: `x[rnumc] <- (C & 0xFF00) | zext_16(data); pc <- P`. -/
def execImmlow (rC : RegNum) (imm8 : Byte) (s : State) : Outcome := executed .immlow rC (Byte.hi imm8) (Byte.lo imm8) s

/-- R197 `immhigh rC, imm8`: `x[rnumc] <- {data, C[7:0]}; pc <- P`. -/
def execImmhigh (rC : RegNum) (imm8 : Byte) (s : State) : Outcome := executed .immhigh rC (Byte.hi imm8) (Byte.lo imm8) s

end Sys2Proof.Machine
end

