-- ==== Sys2Proof/Machine/MemoryControl.lean ====
section
/-! DEFINITION. The memory and control-transfer family (`42_memory_control_family.md`). Each meaning is R250 applied to the mnemonic: the
ALU result of its rule, routed by its row of the control table (R130). In the docstrings `A`, `B`, `C` are `x[rnuma]`,
`x[rnumb]`, `x[rnumc]` and `P` is `pc + 1`, all read before any write (R106, R251).
A sub-op's `rnumb` field is its sub-op code; that register is read and its value never used (R75). -/

namespace Sys2Proof.Machine

/-- R141 `ldmem rC, rA`: `x[rnumc] <- MemRead(A, 1); pc <- P`. -/
def execLdmem (rC rA : RegNum) (s : State) : Outcome := executed .ldmem rC 1 rA s

/-- R142 `stmem rC, rA`: `MemWrite(C, 1, A); pc <- P`. -/
def execStmem (rC rA : RegNum) (s : State) : Outcome := executed .stmem rC 2 rA s

/-- R143 `call rC, rA`: `MemWrite(A, 1, P); pc <- C`. No register changes. -/
def execCall (rC rA : RegNum) (s : State) : Outcome := executed .call rC 3 rA s

/-- R144 `return rA`: `pc <- MemRead(A, 1)`. No register changes. -/
def execRet (freeC : Nibble) (rA : RegNum) (s : State) : Outcome := executed .ret freeC 4 rA s

/-- R145 `jump rA`: `pc <- P + A`. -/
def execJump (freeC : Nibble) (rA : RegNum) (s : State) : Outcome := executed .jump freeC 5 rA s

/-- R146 `branch rC, rA`: `pc <- (C != 0) ? P + A : P`. -/
def execBranch (rC rA : RegNum) (s : State) : Outcome := executed .branch rC 6 rA s

/-- R147 `pop rC, rA`: `v = MemRead(A, 1); x[rnumc] <- v; x[rnuma] <- A + 1; pc <- P`. -/
def execPop (rC rA : RegNum) (s : State) : Outcome := executed .pop rC 9 rA s

/-- R148 `push rC, rA`: `MemWrite(A - 1, 1, C); x[rnuma] <- A - 1; pc <- P`. -/
def execPush (rC rA : RegNum) (s : State) : Outcome := executed .push rC 10 rA s

end Sys2Proof.Machine
end

