-- ==== Sys2Proof/Machine/NoOp.lean ====
section
/-! DEFINITION. The no-op sub-opcodes (`40_decode_alu_common.md`). Each meaning is R250 applied to the mnemonic: the
ALU result of its rule, routed by its row of the control table (R130). In the docstrings `A`, `B`, `C` are `x[rnuma]`,
`x[rnumb]`, `x[rnumc]` and `P` is `pc + 1`, all read before any write (R106, R251). -/

namespace Sys2Proof.Machine

/-- R104 `nop`: `pc <- P`; no register or memory changes, whatever the free fields hold. -/
def execNop (freeC freeA : Nibble) (s : State) : Outcome := executed .nop freeC 0 freeA s

/-- R105, sub-op 7: in the reference `pc <- P` and nothing else (R252). Its bubble is a pipeline effect (`fetchStage`, R213). -/
def execUnassigned7 (freeC freeA : Nibble) (s : State) : Outcome := executed .unassigned freeC 7 freeA s

/-- R105, sub-op 8: as sub-op 7 (D12). -/
def execUnassigned8 (freeC freeA : Nibble) (s : State) : Outcome := executed .unassigned freeC 8 freeA s

end Sys2Proof.Machine
end

