-- ==== Sys2Proof/Machine/Dispatch.lean ====
section
/-! DEFINITION. The meaning of every instruction, one arm per row of the opcode table (R72). -/

namespace Sys2Proof.Machine

def exec (i : Instr) (s : State) : Host.Outcome State Fault Refusal :=
  match i with
  | .nop freeC freeA => Sys2Proof.Machine.execNop freeC freeA s
  | .ldmem rC rA => Sys2Proof.Machine.execLdmem rC rA s
  | .stmem rC rA => Sys2Proof.Machine.execStmem rC rA s
  | .call rC rA => Sys2Proof.Machine.execCall rC rA s
  | .ret freeC rA => Sys2Proof.Machine.execRet freeC rA s
  | .jump freeC rA => Sys2Proof.Machine.execJump freeC rA s
  | .branch rC rA => Sys2Proof.Machine.execBranch rC rA s
  | .unassigned7 freeC freeA => Sys2Proof.Machine.execUnassigned7 freeC freeA s
  | .unassigned8 freeC freeA => Sys2Proof.Machine.execUnassigned8 freeC freeA s
  | .pop rC rA => Sys2Proof.Machine.execPop rC rA s
  | .push rC rA => Sys2Proof.Machine.execPush rC rA s
  | .not rC rA => Sys2Proof.Machine.execNot rC rA s
  | .neg rC rA => Sys2Proof.Machine.execNeg rC rA s
  | .cnot rC rA => Sys2Proof.Machine.execCnot rC rA s
  | .popcount rC rA => Sys2Proof.Machine.execPopcount rC rA s
  | .bitrev rC rA => Sys2Proof.Machine.execBitrev rC rA s
  | .add rC rB rA => Sys2Proof.Machine.execAdd rC rB rA s
  | .sub rC rB rA => Sys2Proof.Machine.execSub rC rB rA s
  | .mul rC rB rA => Sys2Proof.Machine.execMul rC rB rA s
  | .div rC rB rA => Sys2Proof.Machine.execDiv rC rB rA s
  | .xor rC rB rA => Sys2Proof.Machine.execXor rC rB rA s
  | .and rC rB rA => Sys2Proof.Machine.execAnd rC rB rA s
  | .or rC rB rA => Sys2Proof.Machine.execOr rC rB rA s
  | .shl rC rB rA => Sys2Proof.Machine.execShl rC rB rA s
  | .shr rC rB rA => Sys2Proof.Machine.execShr rC rB rA s
  | .lt rC rB rA => Sys2Proof.Machine.execLt rC rB rA s
  | .le rC rB rA => Sys2Proof.Machine.execLe rC rB rA s
  | .cmove rC rB rA => Sys2Proof.Machine.execCmove rC rB rA s
  | .cadd rC rB rA => Sys2Proof.Machine.execCadd rC rB rA s
  | .immlow rC imm8 => Sys2Proof.Machine.execImmlow rC imm8 s
  | .immhigh rC imm8 => Sys2Proof.Machine.execImmhigh rC imm8 s

end Sys2Proof.Machine
end

