-- ==== Sys2Proof/Machine/HazardUnit.lean ====
section
/-! DEFINITION. The HazardUnit (R200 to R206): a stateless comparator of two resident instructions. -/

namespace Sys2Proof.Machine

/-- `HazardDetect(P, Q)` of R201: producer and consumer both have ALU write-back, and the consumer's `rnuma` or `rnumb`
field is the producer's resolved destination (R200). The raw fields are compared, whatever they encode (R204). -/
def hazardDetect (producer consumer : Fields) : Bool :=
  aluWriteBackEnable producer.mnem && aluWriteBackEnable consumer.mnem &&
    (consumer.rnuma == destOfFields producer || consumer.rnumb == destOfFields producer)

/-- `hazard_ED` (R202): the report for the instructions in Execute and Decode, an output that no state latches (D26). -/
def PipeState.hazardED (p : PipeState) : Bool := hazardDetect p.E.cur.f p.D.cur.f

/-- The ControlUnit's outputs in a cycle (R120): keyed to the WriteBack, Decode and Memory residents. -/
def PipeState.control (p : PipeState) : ControlOutputs := controlUnit p.W.cur.f p.D.cur.f p.M.cur.f

end Sys2Proof.Machine
end

