-- ==== Sys2Proof/Machine/Pipeline.lean ====
section
/-! DEFINITION. The pipelined datapath (R210 to R235): five stage functions, each reading current pipeline registers and
writing next ones, run in the order WriteBack, Memory, Execute, Decode, Fetch (R231, D15), then the atomic swap (R232). -/

namespace Sys2Proof.Machine

/-! ### WriteBack (R228) -/

/-- WriteBack commits the resident instruction's results to `pipe_reg`. -/
def writeBackStage (p : PipeState) : PipeState :=
  let w := p.W.cur
  p.withReg (commitWB w.f.mnem w.f.rnumc w.f.rnuma w.aluResult w.memValue p.reg)

/-! ### Memory (R225, R226) -/

/-- The resident instruction's data access: its `memValue` and the memory after it. -/
def memoryStageAccess (p : PipeState) : Word × Memory :=
  memAccess p.M.cur.f.mnem p.M.cur.aluResult p.M.cur.valA p.M.cur.valC p.M.cur.valP p.mem

/-- Memory performs the access and writes `W.next`. -/
def memoryStage (p : PipeState) : PipeState :=
  (p.withMem (memoryStageAccess p).2).nextW
    { f := p.M.cur.f
      aluResult := p.M.cur.aluResult
      memValue := (memoryStageAccess p).1
      valC := p.M.cur.valC }

/-! ### Execute (R220 to R223) -/

/-- R221: the hazard report for the pair now in Memory and Execute. -/
def PipeState.fwd (p : PipeState) : Bool := hazardDetect p.M.cur.f p.E.cur.f

/-- R222: `opA`, bypassed from the producer's ALU result when its `rnuma` is the producer's destination. -/
def PipeState.opA (p : PipeState) : Word :=
  if p.fwd && p.E.cur.f.rnuma == destOfFields p.M.cur.f then p.M.cur.aluResult else p.E.cur.valA

/-- R222: `opB`, bypassed in the same way by `rnumb`. -/
def PipeState.opB (p : PipeState) : Word :=
  if p.fwd && p.E.cur.f.rnumb == destOfFields p.M.cur.f then p.M.cur.aluResult else p.E.cur.valB

/-- Execute invokes the ALU on the bypassed operands and writes `M.next` (R220, R223). `valC` is never bypassed. -/
def executeStage (p : PipeState) : PipeState :=
  let e := p.E.cur
  p.nextM
    { f := e.f
      aluResult := alu e.f.mnem p.opA p.opB e.valC e.data e.valP
      valC := e.valC
      valA := p.opA
      valP := e.valP }

/-! ### Decode (R215) -/

/-- Decode reads the three registers and rebuilds the immediate, writing `E.next`. -/
def decodeStage (p : PipeState) : PipeState :=
  let d := p.D.cur
  let o := fetchOperands p.reg d.f.rnumc d.f.rnumb d.f.rnuma d.valP
  p.nextE
    { f := d.f
      valA := o.valA
      valB := o.valB
      valC := o.valC
      data := o.data
      valP := o.valP }

/-! ### Fetch (R212 to R214) -/

/-- R212: the pc selected this cycle, by the WriteBack-resident instruction. -/
def PipeState.sel (p : PipeState) : Word :=
  pcSelect p.W.cur.f.mnem p.F.cur.pc p.W.cur.aluResult p.W.cur.memValue p.W.cur.valC

/-- Fetch: under `bubbleInsert` it emits the `nop` word and keeps the selected pc (R213, D13); otherwise it reads the word
at the selected pc and advances (R214). It writes `D.next` and `F.next`. -/
def fetchStage (p : PipeState) : PipeState :=
  if bubbleInsert p.D.cur.f.mnem then
    (p.nextD { f := bubbleFields, valP := p.sel }).nextF { pc := p.sel }
  else
    (p.nextD { f := fieldsOf (Memory.read p.mem p.sel), valP := p.sel + 1 }).nextF { pc := p.sel + 1 }

/-! ### The clock step (R230) -/

/-- `pipe_step` of R230: the five stages in the order of R231, then the atomic swap. -/
def pipeStep (p : PipeState) : PipeState :=
  (fetchStage (decodeStage (executeStage (memoryStage (writeBackStage p))))).swap

end Sys2Proof.Machine
end

