-- ==== Sys2Proof/Machine/Harness.lean ====
section
/-! DEFINITION. The harness at its boundary (R330 to R340): the memory image, the run counts, the two independent runs, the
equivalence check and the result. Text is a list of characters. None of its errors is a fault of the machine (R339). -/

namespace Sys2Proof.Machine

/-! ### Reading text (R332, D21; details in assumption 8) -/

/-- White space between the two numbers of a line. -/
def isBlank (c : Char) : Bool := c == ' ' || c == '\t' || c == '\r'

/-- The pieces of a text between separators. -/
def splitOn (sep : Char → Bool) : List Char → List (List Char)
  | [] => [[]]
  | c :: cs =>
    if sep c then [] :: splitOn sep cs
    else match splitOn sep cs with
      | [] => [[c]]
      | t :: ts => (c :: t) :: ts

/-- The lines of a text. -/
def textLines (text : List Char) : List (List Char) := splitOn (· == '\n') text

/-- The words of a line. -/
def lineTokens (line : List Char) : List (List Char) := (splitOn isBlank line).filter (! ·.isEmpty)

/-- The value of a decimal digit. -/
def digitValue (c : Char) : Option Nat :=
  if '0'.toNat ≤ c.toNat ∧ c.toNat ≤ '9'.toNat then some (c.toNat - '0'.toNat) else none

/-- The value of decimal digits that follow a number `acc` already read. -/
def digitsFrom (acc : Nat) : List Char → Option Nat
  | [] => some acc
  | c :: cs => match digitValue c with
    | some d => digitsFrom (acc * 10 + d) cs
    | none => none

/-- An unsigned decimal integer. -/
def decimalNat : List Char → Option Nat
  | [] => none
  | c :: cs => digitsFrom 0 (c :: cs)

/-- A decimal integer with an optional leading `-`. -/
def decimalInt : List Char → Option Int
  | '-' :: cs => (decimalNat cs).map fun n => -(n : Int)
  | cs => (decimalNat cs).map fun n => (n : Int)

/-! ### The memory image (R332, R333) -/

/-- The address and value of one line; a blank line holds none. An address outside [0, 65535], a value outside
[-32768, 65535] and a line that is not two integers are RangeErrors (R333, D21). -/
def parseImageLine (line : List Char) : Except ErrorKind (Option (Nat × Int)) :=
  match lineTokens line with
  | [] => .ok none
  | [a, v] => match decimalNat a, decimalInt v with
    | some a, some v =>
      if a < memWords ∧ -32768 ≤ v ∧ v ≤ 65535 then .ok (some (a, v)) else .error .range
    | _, _ => .error .range
  | _ => .error .range

/-- Line `a v` sets cell `a` to `trunc16(v)` (R332). -/
def storeImagePair (m : Memory) (c : Nat × Int) : Memory := Memory.writeCell m c.1 (trunc16 c.2)

/-- Loads lines in order, stopping at the first bad one (R333). A later line for an address wins (D21). -/
def loadImageLines (m : Memory) : List (List Char) → Except ErrorKind Memory
  | [] => .ok m
  | l :: ls => match parseImageLine l with
    | .ok none => loadImageLines m ls
    | .ok (some c) => loadImageLines (storeImagePair m c) ls
    | .error k => .error k

/-- The memory of an image text: the image's cells, `0x0000` elsewhere (R330). -/
def loadImage (text : List Char) : Except ErrorKind Memory := loadImageLines [] (textLines text)

/-- Both models at reset with an image loaded identically into both memories (R330, R331). -/
def State.withImage (image : Memory) : State := State.resetWith image

/-! ### The run (R254, R334 to R336) -/

/-- `N` calls of `ref_step` (R254). -/
def refRun (n : Nat) (r : RefState) : RefState := refStep^[n] r

/-- `M` calls of `pipe_step` (R230, R335). -/
def pipeRun (n : Nat) (p : PipeState) : PipeState := pipeStep^[n] p

/-! ### The equivalence check (R337, R338) -/

/-- The check's report (R338). -/
inductive Report where
  | equal
  | pcMismatch (pc pipePc : Word)
  | regMismatch (i : RegNum) (reg pipeReg : Word)
  | memMismatch (a : Nat) (mem pipeMem : Word)
deriving DecidableEq, Repr

/-- The lowest-numbered register that differs. -/
def firstRegMismatch (x y : RegFile) : Option RegNum :=
  ((List.range 16).map (BitVec.ofNat 4)).find? fun i => RegFile.read x i != RegFile.read y i

/-- The lowest word index at which two memories differ. Only cells listed in one of them can differ. -/
def firstMemMismatch (m n : Memory) : Option Nat :=
  (((m ++ n).map Prod.fst).filter fun a =>
    decide (a < memWords) && Memory.readCell m a != Memory.readCell n a).min?

/-- The check (R337): `pc`, then registers 0 to 15, then cells 0 to 65535; the first mismatch is reported (R338, D22). -/
def check (r : RefState) (p : PipeState) : Report :=
  if r.pc ≠ p.pc then .pcMismatch r.pc p.pc
  else match firstRegMismatch r.reg p.reg with
    | some i => .regMismatch i (RegFile.read r.reg i) (RegFile.read p.reg i)
    | none => match firstMemMismatch r.mem p.mem with
      | some a => .memMismatch a (Memory.readCell r.mem a) (Memory.readCell p.mem a)
      | none => .equal

/-- `run(image, N, M)` of R335: both models from reset with the image, run independently, then checked. -/
def run (image : Memory) (n m : Nat) : Report :=
  check (refRun n (RefState.resetWith image)) (pipeRun m (PipeState.resetWith image))

/-! ### Arguments, errors and the result (R334, R339, R340) -/

/-- What the harness is given: the image file's text, or nothing when there is no such file, and the count arguments. -/
structure Invocation where
  image : Option (List Char)
  counts : List (List Char)
deriving DecidableEq, Repr

/-- A run count (R334): not an integer is a ParseError, negative a RangeError. -/
def parseCount (text : List Char) : Except ErrorKind Nat :=
  match decimalInt text with
  | none => .error .parse
  | some v => if v < 0 then .error .range else .ok v.toNat

/-- The two counts, or every error they hold (R334). -/
def parseCounts : List (List Char) → Except (List ErrorKind) (Nat × Nat)
  | [n, m] => match parseCount n, parseCount m with
    | .ok a, .ok b => .ok (a, b)
    | .error j, .ok _ => .error [j]
    | .ok _, .error k => .error [k]
    | .error j, .error k => .error [j, k]
  | _ => .error [.usage]

/-- The image, or its error: a missing file is an IOError, a bad line a RangeError (R333). -/
def parseImage : Option (List Char) → Except (List ErrorKind) Memory
  | none => .error [.io]
  | some text => match loadImage text with
    | .ok m => .ok m
    | .error k => .error [k]

/-- What the harness ends with (R338, R339). -/
inductive RunResult where
  | fatal (k : ErrorKind)
  | completed (report : Report)
deriving DecidableEq, Repr

/-- The fatal error reported when at least one holds: that one, or a free choice among several (assumption 7). -/
def reportFatal (k : ErrorKind) (ks : List ErrorKind) : RunResult :=
  match ks with
  | [] => .fatal k
  | _ :: _ => .fatal (((k :: ks)[Config.fatalChoice (k :: ks) % (ks.length + 1)]?).getD k)

/-- Every fatal error of an invocation (R333, R334, R339). -/
def fatalErrors (inv : Invocation) : List ErrorKind :=
  (match parseCounts inv.counts with | .ok _ => [] | .error ks => ks) ++
    (match parseImage inv.image with | .ok _ => [] | .error ks => ks)

/-- The harness: a fatal error is reported before any simulation runs (R339), otherwise the run's report (R335). -/
def harness (inv : Invocation) : RunResult :=
  match parseCounts inv.counts, parseImage inv.image with
  | .ok (n, m), .ok image => .completed (run image n m)
  | _, _ => match fatalErrors inv with
    | k :: ks => reportFatal k ks
    | [] => .fatal .usage

/-- The error kind of a result (R339), if it is no success. -/
def RunResult.error : RunResult → Option ErrorKind
  | .fatal k => some k
  | .completed .equal => none
  | .completed (.pcMismatch _ _) => some .equivalenceMismatch
  | .completed (.regMismatch _ _ _) => some .equivalenceMismatch
  | .completed (.memMismatch _ _ _) => some .equivalenceMismatch

/-- The exit status (R340, D23): success is 0, every error kind its open non-zero code. -/
def RunResult.exitStatus (r : RunResult) : Nat :=
  match r.error with
  | none => 0
  | some k => Config.exitCode k

end Sys2Proof.Machine
end

