-- ==== Sys2Proof/Machine/Step.lean ====
section
/-! DEFINITION. One step of the hardware, and placing one instruction where the next step fetches. -/

namespace Sys2Proof.Machine

/-- One step: the reference interpreter fetches at `pc`, decodes and executes one instruction (R250), and the pipeline takes
one clock (R230). The two share nothing (R20), so neither sees the other; that one step advances each by one is a DESIGN
CHOICE, assumption 1 (`Harness.run` of R335 advances them by any N and M). -/
def step (s : State) : Host.Outcome State Fault Refusal :=
  match exec (decodeWord (Memory.read s.ref.mem s.ref.pc)) s with
  | .next t => .next (t.withPipe (pipeStep t.pipe))
  | .fault r => .fault r
  | .refused r => .refused r

/-- The state with one instruction word, given as the number `w` of `nbits` bits, placed where the next step fetches: the
reference's cell at `pc`, and the pipeline's cell at the pc its Fetch selects, as the harness's load fills both memories
(R331, assumption 12). -/
def State.withFetchWord (s : State) (nbits w : Nat) : State :=
  let v : Word := BitVec.ofNat 16 (w % 2 ^ nbits)
  { ref := { s.ref with mem := Memory.write s.ref.mem s.ref.pc v }
    pipe := s.pipe.withMem (Memory.write s.pipe.mem s.pipe.sel v) }

end Sys2Proof.Machine
end

