-- ==== Sys2Proof/Safety.lean ====
section
/-! DEFINITION. The terms claims are stated in: what an instruction's completion leaves, the invariant every step keeps,
and the hazard discipline of R345 to R355 under which the pipeline computes what the reference computes. -/

namespace Sys2Proof.Safety

open Sys2Proof.Machine

/-! ### What one instruction leaves -/

/-- The next state differs from `s` in the reference model's pc and memory and registers at most as given: register `r`
reads `reg r` and cell `a` reads `mem a`; the pipeline is untouched. -/
def RefLeaves (s t : State) (pc : Word) (reg : RegNum → Word) (mem : Word → Word) : Prop :=
  t.ref.pc = pc ∧ (∀ r, RegFile.read t.ref.reg r = reg r) ∧ (∀ a, Memory.read t.ref.mem a = mem a) ∧
    t.pipe = s.pipe

/-- Instruction `i` completes in every state, with the given pc, registers and cells after it. -/
def Completes (i : Instr) (pc : State → Word) (reg : State → RegNum → Word) (mem : State → Word → Word) : Prop :=
  ∀ s : State, ∃ t : State, exec i s = .next t ∧ RefLeaves s t (pc s) (reg s) (mem s)

/-- `x[r]` of the reference model. -/
abbrev regOf (s : State) (r : RegNum) : Word := RegFile.read s.ref.reg r

/-- The cell at `a` of the reference model. -/
abbrev cellOf (s : State) (a : Word) : Word := Memory.read s.ref.mem a

/-- `P`: the address of the sequential successor (R102). -/
abbrev succPc (s : State) : Word := s.ref.pc + 1

/-- A function changed at one point. -/
def setAt {α β : Type} [DecidableEq α] (g : α → β) (x : α) (v : β) : α → β := fun y => if y = x then v else g y

/-- Instruction `i` completes in every state, writing `v` to register `d`, going on at `P`, changing no other register and
no cell: the common effect of the families that only write an ALU result (R160, R170, R190, R195). -/
def WritesOnly (i : Instr) (d : RegNum) (v : State → Word) : Prop :=
  Completes i succPc (fun s => setAt (regOf s) d (v s)) cellOf

/-! ### The invariant -/

/-- `data = {rnumb, rnuma}` in Execute (R30), and `memValue` is zero after anything but a Read (R226). -/
def PipeInv (p : PipeState) : Prop :=
  p.E.cur.data = p.E.cur.f.data ∧ (memoryAccessKind p.W.cur.f.mnem ≠ .read → p.W.cur.memValue = 0)

/-- Both memories are in canonical form and the pipeline registers are consistent. -/
def Inv (s : State) : Prop := Memory.wf s.ref.mem ∧ Memory.wf s.pipe.mem ∧ PipeInv s.pipe

/-! ### Uses and writes of registers (R345 to R348) -/

/-- Whether the result depends on `valA` (part 3 of `70_reset_and_hazards.md`): all but `nop`, `unassigned`, `immlow`, `immhigh`. -/
def usesA (m : Mnemonic) : Bool := !(m ∈ [.nop, .unassigned, .immlow, .immhigh])

/-- Whether the result depends on `valB`: the base binary and conditional mnemonics. -/
def usesB (m : Mnemonic) : Bool :=
  m ∈ [.add, .sub, .mul, .div, .xor, .and, .or, .shl, .shr, .lt, .le, .cmove, .cadd]

/-- Whether the result depends on `valC`. -/
def usesC (m : Mnemonic) : Bool := m ∈ [.stmem, .call, .branch, .push, .cmove, .cadd, .immlow, .immhigh]

/-- Whether a resident instruction writes register `r` (R22, R127 to R129). -/
def writesReg (f : Fields) (r : RegNum) : Bool :=
  (memoryWriteBackEnable f.mnem && f.rnumc == r) || (aluWriteBackEnable f.mnem && destOfFields f == r)

/-- Whether the bypass covers the pair for the register `r` that the consumer names in `rnuma` or `rnumb` (R347). -/
def covers (producer consumer : Fields) (r : RegNum) : Bool :=
  aluWriteBackEnable producer.mnem && aluWriteBackEnable consumer.mnem && destOfFields producer == r

/-- The data-hazard rule R349 for a use of `r` by `q`, where `p1` and `p2` are the instructions at distances 1 and 2 before
it: a write at distance 1 must be covered, and without one there is no write at distance 2. -/
def useOk (bypassed : Bool) (p2 p1 q : Fields) (r : RegNum) : Bool :=
  if writesReg p1 r then bypassed && covers p1 q r else !writesReg p2 r

/-- R349 for all three operands of `q`; `valC` is never bypassed (R348). -/
def usesOk (p2 p1 q : Fields) : Bool :=
  (!usesA q.mnem || useOk true p2 p1 q q.rnuma) && (!usesB q.mnem || useOk true p2 p1 q q.rnumb) &&
    (!usesC q.mnem || useOk false p2 p1 q q.rnumc)

/-- A control transfer: `call`, `return`, `jump`, `branch` (R140, R350). -/
def isTransfer (m : Mnemonic) : Bool := m ∈ [.call, .ret, .jump, .branch]

/-! ### The reference run laid out in pipeline slots (R350 to R355)

A slot is one pipeline cycle's place in fetch order. Each reference step takes one slot; a control transfer is followed by
its three shadow slots and an `unassigned` by its bubble, in which the reference does not step. -/

/-- What the coming slot holds. -/
inductive Slot where
  /-- The instruction at the reference pc. -/
  | instr
  /-- The bubble after an `unassigned` (R353). -/
  | bubble
  /-- A shadow slot of a control transfer, with this many more after it (R350). -/
  | shadow (more : Nat)
deriving DecidableEq, Repr

/-- The reference run in slots: the reference state, the coming slot, the address the next sequential fetch reads, and the
counts `N`, `T` and `U` of R355 so far. -/
structure SlotState where
  ref : RefState
  slot : Slot
  seq : Word
  steps : Nat
  transfers : Nat
  unassigneds : Nat
deriving DecidableEq, Repr

/-- The start of a run over a loaded image (R254, R330). -/
def SlotState.start (image : Memory) : SlotState :=
  { ref := RefState.resetWith image, slot := .instr, seq := 0, steps := 0, transfers := 0, unassigneds := 0 }

/-- The fields of the instruction at the reference pc. -/
def refFields (r : RefState) : Fields := fieldsOf (Memory.read r.mem r.pc)

/-- The slot that follows an instruction of mnemonic `m`. -/
def slotAfter (m : Mnemonic) : Slot :=
  if isTransfer m then .shadow 2 else if m = .unassigned then .bubble else .instr

/-- One slot of the reference run. -/
def slotStep (σ : SlotState) : SlotState :=
  match σ.slot with
  | .instr =>
    let m := (refFields σ.ref).mnem
    { ref := refStep σ.ref
      slot := slotAfter m
      seq := σ.ref.pc + 1
      steps := σ.steps + 1
      transfers := σ.transfers + (isTransfer m).toNat
      unassigneds := σ.unassigneds + (m == .unassigned).toNat }
  | .bubble => { σ with slot := .instr }
  | .shadow 0 => { σ with slot := .instr, seq := σ.seq + 1 }
  | .shadow (k + 1) => { σ with slot := .shadow k, seq := σ.seq + 1 }

/-- The run after `k` slots. -/
def slotRun (image : Memory) (k : Nat) : SlotState := slotStep^[k] (SlotState.start image)

/-- The instruction that occupies slot `k`: a bubble or a shadow slot counts as `nop`. -/
def slotFields (image : Memory) (k : Nat) : Fields :=
  match (slotRun image k).slot with
  | .instr => refFields (slotRun image k).ref
  | .bubble => bubbleFields
  | .shadow _ => bubbleFields

/-- The instruction `d` slots before slot `k`; before the first slot the pipeline holds bubbles (R36). -/
def slotFieldsBefore (image : Memory) (k d : Nat) : Fields :=
  if d ≤ k then slotFields image (k - d) else bubbleFields

/-- The fields a fetch in slot `k` of address `a` reads: stores of the two slots before it are not seen yet (R354). -/
def fetchedFields (image : Memory) (k : Nat) (a : Word) : Fields :=
  fieldsOf (Memory.read (slotRun image (k - 2)).ref.mem a)

/-- What slot `k` fetches is what R355 asks: in a shadow slot a `nop`; in an instruction's slot the word the reference
executes, so that no store of the two slots before has changed it (R354). A bubble fetches nothing. -/
def fetchOk (image : Memory) (k : Nat) : Bool :=
  match (slotRun image k).slot with
  | .instr => decide (fetchedFields image k (slotRun image k).ref.pc = refFields (slotRun image k).ref)
  | .bubble => true
  | .shadow _ => (fetchedFields image k (slotRun image k).seq).mnem == .nop

/-- The three conditions of R355 for the slots below `m`: every register use meets R349, every word fetched in a shadow slot
is `nop`, and no store breaks R354. -/
def HazardFree (image : Memory) (m : Nat) : Prop :=
  ∀ k < m, usesOk (slotFieldsBefore image k 2) (slotFieldsBefore image k 1) (slotFields image k) = true ∧
    fetchOk image k = true

/-- An instruction that is no control transfer, is not `unassigned` and writes no register. -/
def quietInstr (m : Mnemonic) : Bool :=
  !isTransfer m && m != .unassigned && !memoryWriteBackEnable m && !aluWriteBackEnable m

/-- The last slots before `m` are quiet enough for the check to give `Equal` (R355): none of the last four is a control
transfer or `unassigned` or writes a register, and none of the last three writes memory. -/
def Quiet (image : Memory) (m : Nat) : Prop :=
  ∀ k < m, (m ≤ k + 4 → quietInstr (slotFields image k).mnem = true) ∧
    (m ≤ k + 3 → memoryAccessKind (slotFields image k).mnem ≠ .write)

/-! ### One instruction in isolation -/

/-- The pipeline is about to execute the reference's next instruction with nothing else in flight: its word is in Decode,
the next fetch is its successor, `nop`s are in Execute, Memory and WriteBack, and registers and memory agree. -/
def Aligned (r : RefState) (p : PipeState) : Prop :=
  p.reg = r.reg ∧ p.mem = r.mem ∧ p.F.cur.pc = r.pc + 1 ∧ p.D.cur = { f := refFields r, valP := r.pc + 1 } ∧
    p.E.cur.f.mnem = .nop ∧ p.M.cur.f.mnem = .nop ∧ p.W.cur.f.mnem = .nop

/-- Cells `r.pc + 1` to `r.pc + 3` hold `nop`s, before and after the instruction at `r.pc`. -/
def Padded (r : RefState) : Prop :=
  ∀ k ∈ [(1 : Word), 2, 3],
    (fieldsOf (Memory.read r.mem (r.pc + k))).mnem = .nop ∧
      (fieldsOf (Memory.read (refStep r).mem (r.pc + k))).mnem = .nop

/-- The reference steps that one four-cycle block of the pipeline covers: the instruction alone for a control transfer, with
the three `nop`s after it otherwise, one fewer after an `unassigned`, whose bubble takes a cycle (R353). -/
def blockSteps (r : RefState) : Nat :=
  if isTransfer (refFields r).mnem then 1 else if (refFields r).mnem = .unassigned then 3 else 4

/-- The reference after one block. -/
def refBlock (r : RefState) : RefState := refStep^[blockSteps r] r

end Sys2Proof.Safety
end

