-- ==== Sys2Proof/Certificates/Slice0/Obligations.lean ====
section
/-! DEFINITION. The statements for the provers, in the order of OBLIGATIONS.json. Where a statement rests on a decision the
spec marks as its own (D<n> of `92_eei_decisions.md`) or on a choice of the model (log entry), its docstring says so. -/

open Sys2Proof Sys2Proof.Machine Sys2Proof.Safety

/-- Decoding an encoded instruction gives it back, and leaves the cells after it. For every instruction, whatever its
operands and free fields, and any cells after its word, decode reads exactly that instruction and leaves those cells.
The opcode numbers are the spec's own decision D1. -/
def Obligations.DecodeInvertsEncode : Prop :=
  ∀ (i : Instr) (rest : List Word), decode (encodeWords i ++ rest) = .instr i rest

/-- Encoding a decoded word gives the word back: no bit of a word is lost. For every one of the 65536 words, the encoding
of the instruction it decodes to is the word. The opcode numbers are the spec's own decision D1. -/
def Obligations.EncodeInvertsDecode : Prop :=
  ∀ w : Word, encode (decodeWord w) = w

/-- Every word has a mnemonic in the opcode map, and its decoded instruction carries it and its fields. For every word,
the lookup of the opcode map by fn and rnumb answers a mnemonic (the default is never used), the decoded instruction
has that mnemonic, and its fields are the word's fields. The opcode numbers are decision D1. -/
def Obligations.DecodedMnemonicFollowsFields : Prop :=
  ∀ w : Word,
    mnemLookup (fieldsOf w).fn (fieldsOf w).rnumb = some (decodeWord w).mnemonic ∧
      (fieldsOf w).mnem = (decodeWord w).mnemonic ∧ (decodeWord w).fields = fieldsOf w

/-- Each word matches exactly one of the 31 opcode-table rows, the row of its mnemonic. For every word there is one row of
the opcode table whose mask and pattern it matches; that row carries the decoded instruction's mnemonic, and no other
row matches. The opcode numbers are decision D1. -/
def Obligations.EveryWordMatchesOneTableRow : Prop :=
  ∀ w : Word, ∃ row ∈ opcodeRows,
    row.holds w = true ∧ row.mnemonic = (decodeWord w).mnemonic ∧
      ∀ other ∈ opcodeRows, other.holds w = true → other = row

/-- Decode takes fn, rnumc, rnumb, rnuma and data from bits 15..12, 11..8, 7..4, 3..0 and 7..0. As numbers, the fields of
every word are its base-16 digits from the top, data is its low byte, and every word decodes. -/
def Obligations.FieldsSitAtFixedBits : Prop :=
  ∀ w : Word,
    (fieldsOf w).fn.toNat = w.toNat / 4096 ∧ (fieldsOf w).rnumc.toNat = w.toNat / 256 % 16 ∧
      (fieldsOf w).rnumb.toNat = w.toNat / 16 % 16 ∧ (fieldsOf w).rnuma.toNat = w.toNat % 16 ∧
      (fieldsOf w).data.toNat = w.toNat % 256 ∧ ∀ rest, decode (w :: rest) = .instr (decodeWord w) rest

/-- Words written out in the spec decode to the instructions it names. The words of the spec's examples, one or more per
family, decode to the instructions the spec writes beside them (numbers by decision D1). -/
def Obligations.SpecWordsDecode : Prop :=
  decodeWord 0x1210 = .add 2 1 0 ∧ decodeWord 0x0F0F = .nop 15 15 ∧ decodeWord 0x0070 = .unassigned7 0 0 ∧
    decodeWord 0x0F8F = .unassigned8 15 15 ∧ decodeWord 0x00F0 = .bitrev 0 0 ∧ decodeWord 0x0536 = .call 5 6 ∧
    decodeWord 0x1F00 = .add 15 0 0 ∧ decodeWord 0xC210 = .cmove 2 1 0 ∧ decodeWord 0xFFFF = .immhigh 15 0xFF

/-- A step executes the instruction the cell at pc decodes to, then clocks the pipeline (one each: the model's choice, log
entry 1). When the cell at the reference pc decodes to i and exec of i answers t, then t leaves the pipeline alone and
step answers t with the pipeline clocked once. That one step takes one reference step and one clock is the model's
choice (log entry 1). -/
def Obligations.StepRunsDecodedInstruction : Prop :=
  ∀ (s t : State) (i : Instr) (rest : List Word),
    decode (Memory.read s.ref.mem s.ref.pc :: rest) = .instr i rest → exec i s = .next t →
      t.pipe = s.pipe ∧ step s = .next (t.withPipe (pipeStep s.pipe))

/-- A step always completes: it is one reference step and one pipeline clock (their pairing: log entry 1). For every
state, step answers the next state whose reference part is ref_step, taken from the raw fields of the fetched word,
and whose pipeline is clocked once. No step faults or is refused. The pairing is the model's choice (log entry 1). -/
def Obligations.StepIsReferenceStepAndClock : Prop :=
  ∀ s : State, step s = .next { ref := refStep s.ref, pipe := pipeStep s.pipe }

/-- Every step keeps the canonical memories and the consistency of the pipeline registers. From every state that meets the
invariant (both memories canonical, E.data equal to the E fields' {rnumb, rnuma}, W.memValue zero unless the
W-resident instruction reads; decision D20), a step gives a state that meets it. -/
def Obligations.StepKeepsInvariant : Prop :=
  ∀ s t : State, Inv s → step s = .next t → Inv t

/-- The reset state meets the invariant, with any canonical image loaded. State.reset meets the invariant that every step
keeps, and so does the reset state over every canonical memory image. Reset values rest on decision D18. -/
def Obligations.ResetMeetsInvariant : Prop :=
  Inv State.reset ∧ ∀ image : Memory, Memory.wf image → Inv (State.withImage image)

/-- Reset: registers, pcs and pipeline registers are zero, D to W hold nop bubbles, memories hold the image. Over every
loaded image: each register of both models reads 0, both pcs are 0, D, E, M and W hold zero fields that decode as nop
and zero values, and both memories are the image; with no image every cell reads 0. Register, pc and memory values
rest on decision D18. -/
def Obligations.ResetStateIsZero : Prop :=
  (∀ a, Memory.read State.reset.ref.mem a = 0 ∧ Memory.read State.reset.pipe.mem a = 0) ∧
    ∀ image : Memory,
      (∀ r, RegFile.read (State.withImage image).ref.reg r = 0 ∧ RegFile.read (State.withImage image).pipe.reg r = 0) ∧
      (State.withImage image).ref.pc = 0 ∧ (State.withImage image).pipe.pc = 0 ∧
      (State.withImage image).ref.mem = image ∧ (State.withImage image).pipe.mem = image ∧
      (State.withImage image).pipe.D.cur = ⟨⟨0, 0, 0, 0⟩, 0⟩ ∧
      (State.withImage image).pipe.E.cur = ⟨⟨0, 0, 0, 0⟩, 0, 0, 0, 0, 0⟩ ∧
      (State.withImage image).pipe.M.cur = ⟨⟨0, 0, 0, 0⟩, 0, 0, 0, 0⟩ ∧
      (State.withImage image).pipe.W.cur = ⟨⟨0, 0, 0, 0⟩, 0, 0, 0⟩ ∧
      Fields.mnem ⟨0, 0, 0, 0⟩ = .nop

/-- The reference run does not depend on the pipelined run, nor the pipelined run on the reference run. If two states have
the same reference part, so have their next states, whatever their pipelines hold; and the same with the parts
exchanged. -/
def Obligations.ModelsShareNothing : Prop :=
  ∀ s₁ s₂ t₁ t₂ : State, step s₁ = .next t₁ → step s₂ = .next t₂ →
    (s₁.ref = s₂.ref → t₁.ref = t₂.ref) ∧ (s₁.pipe = s₂.pipe → t₁.pipe = t₂.pipe)

/-- k steps of the machine are k reference steps and k clocks, so they give the harness's run with N = M = k (pairing: log
entry 1). Running k steps from any state never stops and gives k reference steps and k clocks; from a loaded image,
the check of the result is the harness's report for N = M = k. The pairing is the model's choice (log entry 1). -/
def Obligations.RunAdvancesBothModels : Prop :=
  ∀ (k : Nat) (s : State),
    Sys2Proof.core.run k s = .next { ref := refRun k s.ref, pipe := pipeRun k s.pipe } ∧
      ∀ image : Memory, ∃ t : State,
        Sys2Proof.core.run k (State.withImage image) = .next t ∧ check t.ref t.pipe = run image k k

/-- nop and both unassigned sub-ops complete, only advancing pc, whatever their free fields hold. For every value of the
free fields, nop and unassigned (sub-ops 7 and 8) complete in every state with pc + 1 and every register, every cell
and the pipeline unchanged (decision D12). -/
def Obligations.NoOpsOnlyAdvance : Prop :=
  ∀ c a : Nibble,
    Completes (.nop c a) succPc regOf cellOf ∧ Completes (.unassigned7 c a) succPc regOf cellOf ∧
      Completes (.unassigned8 c a) succPc regOf cellOf

/-- ldmem completes: x[rnumc] becomes the cell at x[rnuma], nothing else changes but pc. ldmem completes in every state,
also with rnumc = rnuma: register rnumc reads the cell at the old x[rnuma], pc is pc + 1, every other register, every
cell and the pipeline are unchanged (address formula: decision D4). -/
def Obligations.LdmemLoadsAddressedCell : Prop :=
  ∀ rC rA : RegNum, WritesOnly (.ldmem rC rA) rC fun s => cellOf s (regOf s rA)

/-- stmem completes: the cell at x[rnumc] becomes x[rnuma], no register and no other cell changes. stmem completes in
every state: the cell at x[rnumc] holds x[rnuma], pc is pc + 1, every other cell, every register and the pipeline are
unchanged (address formula: decision D4). -/
def Obligations.StmemStoresAtValC : Prop :=
  ∀ rC rA : RegNum,
    Completes (.stmem rC rA) succPc regOf fun s => setAt (cellOf s) (regOf s rC) (regOf s rA)

/-- call completes: the link cell at x[rnuma] gets pc + 1, pc becomes x[rnumc], no register changes. call completes in
every state: the cell at x[rnuma] holds pc + 1, pc is the old x[rnumc], every other cell, every register and the
pipeline are unchanged (address formula: decision D4). -/
def Obligations.CallLinksAndJumps : Prop :=
  ∀ rC rA : RegNum,
    Completes (.call rC rA) (fun s => regOf s rC) regOf fun s => setAt (cellOf s) (regOf s rA) (succPc s)

/-- return completes: pc becomes the cell at x[rnuma], nothing else changes, whatever rnumc holds. return completes in
every state and for every value of its free field: pc is the cell at x[rnuma]; every register, every cell and the
pipeline are unchanged. -/
def Obligations.ReturnJumpsThroughLinkCell : Prop :=
  ∀ (c : Nibble) (rA : RegNum), Completes (.ret c rA) (fun s => cellOf s (regOf s rA)) regOf cellOf

/-- jump and branch complete: pc + 1 + x[rnuma], for branch only when x[rnumc] is not zero. jump completes in every state
with pc at pc + 1 + x[rnuma] modulo 2^16; branch with the same target when x[rnumc] is not 0 and pc + 1 otherwise.
Every register, every cell and the pipeline are unchanged (decision D4). -/
def Obligations.JumpAndBranchAreRelative : Prop :=
  (∀ (c : Nibble) (rA : RegNum), Completes (.jump c rA) (fun s => succPc s + regOf s rA) regOf cellOf) ∧
    ∀ rC rA : RegNum,
      Completes (.branch rC rA) (fun s => if regOf s rC = 0 then succPc s else succPc s + regOf s rA) regOf cellOf

/-- pop completes: x[rnumc] gets the cell at x[rnuma], x[rnuma] goes up by one and wins when they are one register. pop
completes in every state: register rnuma holds the old pointer plus 1, register rnumc (if another one) the cell at the
old pointer, pc is pc + 1; every other register, every cell and the pipeline are unchanged (decisions D4, D10). -/
def Obligations.PopLoadsAndAdvancesPointer : Prop :=
  ∀ rC rA : RegNum,
    Completes (.pop rC rA) succPc
      (fun s r => if r = rA then regOf s rA + 1 else if r = rC then cellOf s (regOf s rA) else regOf s r) cellOf

/-- push completes: the cell at x[rnuma] - 1 gets x[rnumc], x[rnuma] goes down by one. push completes in every state: the
cell at the old pointer minus 1 holds the old x[rnumc], register rnuma that address, pc is pc + 1; every other cell
and register and the pipeline are unchanged (decision D4). -/
def Obligations.PushStoresBelowPointer : Prop :=
  ∀ rC rA : RegNum,
    Completes (.push rC rA) succPc (fun s => setAt (regOf s) rA (regOf s rA - 1))
      fun s => setAt (cellOf s) (regOf s rA - 1) (regOf s rC)

/-- push then pop with the same two registers restores both, leaving the pushed word in its cell. For different registers,
push then pop complete and leave every register as it was, the cell below the pointer holding the pushed value, every
other cell unchanged and pc at pc + 2 (decisions D4, D10). -/
def Obligations.PushThenPopRestores : Prop :=
  ∀ (rC rA : RegNum) (s : State), rC ≠ rA → ∃ t u : State,
    exec (.push rC rA) s = .next t ∧ exec (.pop rC rA) t = .next u ∧
      RefLeaves s u (s.ref.pc + 2) (regOf s) (setAt (cellOf s) (regOf s rA - 1) (regOf s rC))

/-- return through the cell a call linked resumes at the word after the call, with every register unchanged. After call
rC, rA, a return rA completes with pc at the call's pc + 1, every register as before, and only the link cell changed,
to that address (decision D4). -/
def Obligations.ReturnUndoesCall : Prop :=
  ∀ (rC rA : RegNum) (c : Nibble) (s : State), ∃ t u : State,
    exec (.call rC rA) s = .next t ∧ exec (.ret c rA) t = .next u ∧
      RefLeaves s u (succPc s) (regOf s) (setAt (cellOf s) (regOf s rA) (succPc s))

/-- not, neg and cnot complete: x[rnumc] becomes ~A, ~A + 1 and (A = 0). not, neg and cnot complete in every state,
writing only register rnumc with the complement, the complement plus one (which is the wrapped negation) and 1 or 0 as
x[rnuma] is zero or not (decision D5). -/
def Obligations.UnaryNotNegCnot : Prop :=
  ∀ rC rA : RegNum,
    WritesOnly (.not rC rA) rC (fun s => ~~~(regOf s rA)) ∧
      WritesOnly (.neg rC rA) rC (fun s => ~~~(regOf s rA) + 1) ∧
      WritesOnly (.cnot rC rA) rC (fun s => if regOf s rA = 0 then 1 else 0)

/-- popcount completes: x[rnumc] becomes the number of 1 bits among all 16 of x[rnuma]. popcount completes in every state,
writing only register rnumc, with the cardinality of the set of bit positions 0..15 at which x[rnuma] is 1 (decision
D5). -/
def Obligations.PopcountCountsOneBits : Prop :=
  ∀ rC rA : RegNum,
    WritesOnly (.popcount rC rA) rC fun s =>
      BitVec.ofNat 16 (Finset.univ.filter fun i : Fin 16 => (regOf s rA).getLsbD i = true).card

/-- bitrev completes: bit i of x[rnumc] becomes bit 15 - i of x[rnuma], and twice is the identity. bitrev completes in
every state, writing only register rnumc, with a value whose bit i is bit 15 - i of x[rnuma] for i = 0..15; its
formula applied twice gives the operand back (decision D5). -/
def Obligations.BitrevReversesBits : Prop :=
  (∀ A : Word, aluBitrev (aluBitrev A) = A) ∧
    ∀ rC rA : RegNum, ∃ v : State → Word,
      WritesOnly (.bitrev rC rA) rC v ∧
        ∀ (s : State) (i : Nat), i < 16 → (v s).getLsbD i = (regOf s rA).getLsbD (15 - i)

/-- add is fn=1 and completes: x[rnumc] becomes x[rnumb] + x[rnuma] modulo 2^16. Word 0x1210 is add r2, r1, r0, and fn=1
is add for every register; add completes in every state, writing only register rnumc with the sum modulo 2^16 of the
two operands read as unsigned numbers; no overflow is reported anywhere. -/
def Obligations.AddWraps : Prop :=
  decodeWord 0x1210 = .add 2 1 0 ∧
    ∀ rC rB rA : RegNum, decodeWord (encBase 1 rC rB rA) = .add rC rB rA ∧
      WritesOnly (.add rC rB rA) rC fun s => BitVec.ofNat 16 ((u16 (regOf s rB) + u16 (regOf s rA)) % 2 ^ 16)

/-- sub and mul complete: the wrapped difference, and the low 16 bits of the product, signed or unsigned alike. sub and
mul complete in every state, writing only register rnumc: sub the truncated signed difference x[rnumb] - x[rnuma], mul
the low 16 bits of the product, which is the same for the signed and the unsigned readings (decisions D2, D6). -/
def Obligations.SubAndMulWrap : Prop :=
  ∀ rC rB rA : RegNum,
    WritesOnly (.sub rC rB rA) rC (fun s => trunc16 (s16 (regOf s rB) - s16 (regOf s rA))) ∧
      WritesOnly (.mul rC rB rA) rC (fun s => trunc16 (s16 (regOf s rB) * s16 (regOf s rA))) ∧
      WritesOnly (.mul rC rB rA) rC (fun s => BitVec.ofNat 16 (u16 (regOf s rB) * u16 (regOf s rA)))

/-- div completes: the signed quotient rounded toward zero, open for divisor 0, and -32768 / -1 wraps. div completes in
every state, also by zero, writing only register rnumc: for divisor 0 the open parameter cfg.divZero of the dividend
(the statement holds whatever it is), else the two's-complement truncating quotient of x[rnumb] by x[rnuma]; 0x8000 by
0xFFFF gives 0x8000 (decisions D2, D6, D7). -/
def Obligations.DivTruncatesOrIsOpen : Prop :=
  aluDiv 0x8000 0xFFFF = 0x8000 ∧
    ∀ rC rB rA : RegNum,
      WritesOnly (.div rC rB rA) rC fun s =>
        if regOf s rA = 0 then Config.divZero (regOf s rB) else BitVec.sdiv (regOf s rB) (regOf s rA)

/-- xor, and, or, lt and le complete with their bitwise and signed-comparison results. The five complete in every state,
writing only register rnumc: the bitwise result, or 1 or 0 as x[rnumb] is less (or less or equal) than x[rnuma] read
signed (decisions D2, D6). -/
def Obligations.LogicAndCompareResults : Prop :=
  ∀ rC rB rA : RegNum,
    WritesOnly (.xor rC rB rA) rC (fun s => regOf s rB ^^^ regOf s rA) ∧
      WritesOnly (.and rC rB rA) rC (fun s => regOf s rB &&& regOf s rA) ∧
      WritesOnly (.or rC rB rA) rC (fun s => regOf s rB ||| regOf s rA) ∧
      WritesOnly (.lt rC rB rA) rC (fun s => if s16 (regOf s rB) < s16 (regOf s rA) then 1 else 0) ∧
      WritesOnly (.le rC rB rA) rC (fun s => if s16 (regOf s rB) ≤ s16 (regOf s rA) then 1 else 0)

/-- shl and shr complete: logical left and arithmetic right shifts for amounts 0..15, open otherwise. shl and shr complete
in every state, writing only register rnumc: for an unsigned amount below 16 (the signed range 0..15) the left shift
filling zeros or the right shift copying bit 15, and for every other amount the open parameter cfg.shiftOOR, whatever
it is (decisions D6, D8). -/
def Obligations.ShiftsByInRangeAmounts : Prop :=
  ∀ rC rB rA : RegNum,
    WritesOnly (.shl rC rB rA) rC (fun s =>
        if u16 (regOf s rA) < 16 then regOf s rB <<< u16 (regOf s rA)
        else Config.shiftOOR .shl (regOf s rB) (regOf s rA)) ∧
      WritesOnly (.shr rC rB rA) rC (fun s =>
        if u16 (regOf s rA) < 16 then (regOf s rB).sshiftRight (u16 (regOf s rA))
        else Config.shiftOOR .shr (regOf s rB) (regOf s rA))

/-- cmove and cadd complete: A, or C + A, when x[rnumb] is not zero, else the destination's old value. cmove and cadd
complete in every state, writing only register rnumc: x[rnuma], or x[rnumc] + x[rnuma], when x[rnumb] is not 0, and
the old x[rnumc] when it is (decision D9). -/
def Obligations.ConditionalsSelectByValB : Prop :=
  ∀ rC rB rA : RegNum,
    WritesOnly (.cmove rC rB rA) rC (fun s => if regOf s rB = 0 then regOf s rC else regOf s rA) ∧
      WritesOnly (.cadd rC rB rA) rC (fun s => if regOf s rB = 0 then regOf s rC else regOf s rC + regOf s rA)

/-- immlow and immhigh complete: one byte of x[rnumc] becomes the immediate, the other byte stays. immlow and immhigh
complete in every state, writing only register rnumc: the immediate in the low byte under the old high byte, or in the
high byte over the old low byte (opcode numbers: decision D1). -/
def Obligations.ImmediatesReplaceOneByte : Prop :=
  ∀ (rC : RegNum) (imm : Byte),
    WritesOnly (.immlow rC imm) rC (fun s => (regOf s rC).extractLsb' 8 8 ++ imm) ∧
      WritesOnly (.immhigh rC imm) rC (fun s => imm ++ (regOf s rC).extractLsb' 0 8)

/-- immhigh then immlow, in either order, loads (hi << 8) | lo whatever the register held. In the reference interpreter,
immhigh hi and immlow lo on one register, in either order, complete and leave it with hi in the high byte and lo in
the low byte, every other register and every cell unchanged and pc at pc + 2. -/
def Obligations.ImmediatePairLoadsWord : Prop :=
  ∀ (r : RegNum) (hi lo : Byte) (s : State), ∃ t u t' u' : State,
    exec (.immhigh r hi) s = .next t ∧ exec (.immlow r lo) t = .next u ∧
      exec (.immlow r lo) s = .next t' ∧ exec (.immhigh r hi) t' = .next u' ∧
      RefLeaves s u (s.ref.pc + 2) (setAt (regOf s) r (hi ++ lo)) (cellOf s) ∧
      RefLeaves s u' (s.ref.pc + 2) (setAt (regOf s) r (hi ++ lo)) (cellOf s)

/-- Over all instructions: a register changes only where a write-back enable names it. For every instruction and state, if
executing it changes register r, then it is rnumc under the memory write-back (ldmem, pop) or the resolved destination
under the ALU write-back. -/
def Obligations.OnlyWriteBackWritesRegisters : Prop :=
  ∀ (i : Instr) (s t : State) (r : RegNum), exec i s = .next t → regOf t r ≠ regOf s r →
    writesReg i.fields r = true

/-- Over all instructions: a cell changes only by stmem at x[rnumc], call at x[rnuma] or push at x[rnuma] - 1. For every
instruction and state, if executing it changes the cell at a, then it is stmem with a = x[rnumc], call with a =
x[rnuma], or push with a = x[rnuma] - 1 (address formulas: decision D4). -/
def Obligations.OnlyThreeInstructionsWriteMemory : Prop :=
  ∀ (i : Instr) (s t : State) (a : Word), exec i s = .next t → cellOf t a ≠ cellOf s a →
    (∃ rC rA, i = .stmem rC rA ∧ a = regOf s rC) ∨ (∃ rC rA, i = .call rC rA ∧ a = regOf s rA) ∨
      ∃ rC rA, i = .push rC rA ∧ a = regOf s rA - 1

/-- Over all instructions: only call, return, jump and branch go anywhere but to pc + 1. For every instruction and state,
if executing it leaves pc at anything but the next word, it is a call, return, jump or branch. -/
def Obligations.OnlyTransfersLeaveSequence : Prop :=
  ∀ (i : Instr) (s t : State), exec i s = .next t → t.ref.pc ≠ succPc s →
    (∃ rC rA, i = .call rC rA) ∨ (∃ c rA, i = .ret c rA) ∨ (∃ c rA, i = .jump c rA) ∨ ∃ rC rA, i = .branch rC rA

/-- The complete control table is the conjunction of the eight signals, and a clock acts by the unit's outputs, each
keyed to its stage. For every mnemonic, each column of the complete table is the signal of that name, and the row of
an unmapped opcode value is sequential, with no bubble, no access and no write-back. In every pipeline state the
unit's outputs are pcSource, destRegisterIndex and both write-back enables of the WriteBack resident, bubbleInsert of
the Decode resident, and access kind, address source and data source of the Memory resident; and a clock selects the
pc, holds or advances it, commits registers, stores and loads exactly as those outputs say (decisions C1, C2, D10 to
D13, D20, D25; log entry 14). -/
def Obligations.ControlTableIsTheSignals : Prop :=
  (∀ m : Mnemonic,
      controlTable (some m) =
        ⟨pcSource m, bubbleInsert m, memoryAccessKind m, addressSource m, memoryWriteDataSource m, destRegisterIndex m,
          memoryWriteBackEnable m, aluWriteBackEnable m⟩) ∧
    controlTable none = ⟨.sequential, false, .none, .aluResult, .valA, .rnumc, false, false⟩ ∧
    ∀ p : PipeState,
      p.control =
        ⟨pcSource p.W.cur.f.mnem, bubbleInsert p.D.cur.f.mnem, memoryAccessKind p.M.cur.f.mnem,
          addressSource p.M.cur.f.mnem, memoryWriteDataSource p.M.cur.f.mnem,
          if p.W.cur.f.mnem ∈ [.call, .ret, .pop, .push] then p.W.cur.f.rnuma else p.W.cur.f.rnumc,
          memoryWriteBackEnable p.W.cur.f.mnem, aluWriteBackEnable p.W.cur.f.mnem⟩ ∧
      p.sel =
        (if p.control.pcSource = .valC then p.W.cur.valC else if p.control.pcSource = .memValue then p.W.cur.memValue
          else if p.control.pcSource = .aluResult then p.W.cur.aluResult else p.F.cur.pc) ∧
      (pipeStep p).F.cur.pc = (if p.control.bubbleInsert = true then p.sel else p.sel + 1) ∧
      (∀ r, RegFile.read (pipeStep p).reg r =
        if p.control.aluWriteBackEnable = true ∧ r = p.control.destRegisterIndex then p.W.cur.aluResult
        else if p.control.memoryWriteBackEnable = true ∧ r = p.W.cur.f.rnumc then p.W.cur.memValue
        else RegFile.read p.reg r) ∧
      ∀ addr data : Word,
        addr = (if p.control.addressSource = .valA then p.M.cur.valA else p.M.cur.aluResult) →
        data = (if p.control.memoryWriteDataSource = .valC then p.M.cur.valC
          else if p.control.memoryWriteDataSource = .valP then p.M.cur.valP else p.M.cur.valA) →
          (∀ a, Memory.read (pipeStep p).mem a =
            if p.control.memoryAccessKind = .write ∧ a = addr then data else Memory.read p.mem a) ∧
          (pipeStep p).W.cur.memValue = (if p.control.memoryAccessKind = .read then Memory.read p.mem addr else 0)

/-- addressSource, memoryWriteDataSource and destRegisterIndex select as the source's table rows say. For every mnemonic:
addressSource is valA for return and pop, else aluResult; memoryWriteDataSource is valC for push, valP for call, else
valA; the destination is rnuma for call, return, pop and push, else rnumc, and the same function gives the detector the
producer's written index. -/
def Obligations.SourceSelectorsFollowTheTable : Prop :=
  (∀ m : Mnemonic,
      addressSource m = (if m = .ret ∨ m = .pop then .valA else .aluResult) ∧
        memoryWriteDataSource m = (if m = .push then .valC else if m = .call then .valP else .valA)) ∧
    (∀ f : Fields, destOfFields f = if f.mnem ∈ [.call, .ret, .pop, .push] then f.rnuma else f.rnumc) ∧
    ∀ p q : Fields, hazardDetect p q =
      (aluWriteBackEnable p.mnem && aluWriteBackEnable q.mnem && (q.rnuma == destOfFields p || q.rnumb == destOfFields p))

/-- The detector reports exactly when producer and consumer have ALU write-back and a source field is the resolved
destination. For every pair of resident instructions, HazardDetect is true exactly when the producer and the consumer
both have ALU write-back and the consumer's raw rnuma or rnumb field is the producer's written index, rnuma for call,
return, pop and push and rnumc otherwise (that exactly these four take rnuma is the spec's resolution C6). ldmem has
no ALU write-back, so it is never reported (the spec's resolution C1, decision D11; log entry 14). -/
def Obligations.DetectorReportsExactly : Prop :=
  ∀ p q : Fields,
    (hazardDetect p q = true ↔
      aluWriteBackEnable p.mnem = true ∧ aluWriteBackEnable q.mnem = true ∧
        (q.rnuma = (if p.mnem ∈ [.call, .ret, .pop, .push] then p.rnuma else p.rnumc) ∨
          q.rnumb = (if p.mnem ∈ [.call, .ret, .pop, .push] then p.rnuma else p.rnumc))) ∧
      aluWriteBackEnable .ldmem = false

/-- The bypass condition of a cycle is the hazard_ED the unit reported one cycle earlier, with no latch. For every
pipeline state, HazardDetect of the Memory and Execute residents after a clock equals hazard_ED, HazardDetect of the
Execute and Decode residents, before it (decisions D14, D26). -/
def Obligations.BypassUsesLastCyclesReport : Prop :=
  ∀ p : PipeState, (pipeStep p).fwd = p.hazardED

/-- The ALU result depends only on the operands the instruction uses. For every mnemonic, two operand triples that
agree on the operands it uses (valA unless nop, unassigned, immlow or immhigh; valB for the base binary and
conditional mnemonics; valC for the eight that read it) give the same ALU result. -/
def Obligations.AluDependsOnUsedOperandsOnly : Prop :=
  ∀ (m : Mnemonic) (A A' B B' C C' : Word) (d : Byte) (P : Word),
    (usesA m = true → A = A') → (usesB m = true → B = B') → (usesC m = true → C = C') →
      alu m A B C d P = alu m A' B' C' d P

/-- A bypass of an operand that the instruction does not use changes no result. In every pipeline state, hazard report
or not, take for valA and valB the bypassed operand where the Execute resident's mnemonic uses it and the value read
in Decode where it does not. Then M.aluResult after a clock is the ALU of these two, and the clock after it gives the
same state as it gives with this valA in M: neither the ALU nor the Memory stage sees a bypass of a field that is a
sub-op code, an immediate nibble or a free field (an inference the spec marks as its own; bypass: decision D14, log
entry 14). -/
def Obligations.FalsePositiveBypassChangesNothing : Prop :=
  ∀ (p : PipeState) (A B : Word),
    A = (if usesA p.E.cur.f.mnem = true then p.opA else p.E.cur.valA) →
    B = (if usesB p.E.cur.f.mnem = true then p.opB else p.E.cur.valB) →
      (pipeStep p).M.cur.aluResult = alu p.E.cur.f.mnem A B p.E.cur.valC p.E.cur.data p.E.cur.valP ∧
        pipeStep (pipeStep p) = pipeStep ((pipeStep p).withMemoryValA A)

/-- WriteBack commits memValue first and aluResult second, and hands pcSource to Fetch. After a clock every register
reads the WriteBack resident's ALU result where its ALU write-back names it (rnuma for call, return, pop and push,
else rnumc), else its memory value where its memory write-back names it, else what it held (that memValue goes to
rnumc is decision D10; log entry 14); and the pc Fetch selects is W.valC, W.memValue, W.aluResult or F.pc as the
resident's pcSource is valC, memValue, aluResult or sequential. -/
def Obligations.WriteBackCommitsInOrder : Prop :=
  ∀ p : PipeState,
    (∀ r : RegNum, RegFile.read (pipeStep p).reg r =
      if aluWriteBackEnable p.W.cur.f.mnem = true ∧
          r = (if p.W.cur.f.mnem ∈ [.call, .ret, .pop, .push] then p.W.cur.f.rnuma else p.W.cur.f.rnumc)
        then p.W.cur.aluResult
        else if memoryWriteBackEnable p.W.cur.f.mnem = true ∧ r = p.W.cur.f.rnumc then p.W.cur.memValue
        else RegFile.read p.reg r) ∧
    (pcSource p.W.cur.f.mnem = .valC → p.sel = p.W.cur.valC) ∧
    (pcSource p.W.cur.f.mnem = .memValue → p.sel = p.W.cur.memValue) ∧
    (pcSource p.W.cur.f.mnem = .aluResult → p.sel = p.W.cur.aluResult) ∧
    (pcSource p.W.cur.f.mnem = .sequential → p.sel = p.F.cur.pc)

/-- The Memory stage stores for stmem, call and push, loads for ldmem, pop and return, and touches nothing else. After a
clock each cell holds the stored word (valA for stmem, valP for call, valC for push) if it is the cell at the Memory
resident's aluResult and the resident stores, else what it held; W.memValue is the cell read before the clock at
aluResult for ldmem and at valA for pop and return, else 0 (decision D20); the fields, aluResult and valC go on to W. -/
def Obligations.MemoryStageAccessesByMnemonic : Prop :=
  ∀ p : PipeState,
    (∀ a : Word, Memory.read (pipeStep p).mem a =
      if p.M.cur.f.mnem = .stmem ∧ a = p.M.cur.aluResult then p.M.cur.valA
      else if p.M.cur.f.mnem = .call ∧ a = p.M.cur.aluResult then p.M.cur.valP
      else if p.M.cur.f.mnem = .push ∧ a = p.M.cur.aluResult then p.M.cur.valC
      else Memory.read p.mem a) ∧
    (pipeStep p).W.cur =
      { f := p.M.cur.f
        aluResult := p.M.cur.aluResult
        memValue :=
          if p.M.cur.f.mnem = .ldmem then Memory.read p.mem p.M.cur.aluResult
          else if p.M.cur.f.mnem = .pop ∨ p.M.cur.f.mnem = .ret then Memory.read p.mem p.M.cur.valA
          else 0
        valC := p.M.cur.valC }

/-- Execute takes the Memory resident's ALU result for valA and valB when that instruction writes the named register. With
X the operand after the bypass (the Memory resident's aluResult if both residents have ALU write-back and the Execute
resident names its destination in rnuma, or rnumb, else the value read in Decode), M.aluResult after a clock is the
ALU of the bypassed valA and valB and the unbypassed valC, and M.valA is the bypassed valA; fields, valC and valP go
on (decision D14). -/
def Obligations.ExecuteBypassesFromMemoryStage : Prop :=
  ∀ (p : PipeState) (A B : Word),
    A = (if aluWriteBackEnable p.M.cur.f.mnem = true ∧ aluWriteBackEnable p.E.cur.f.mnem = true ∧
          p.E.cur.f.rnuma = destOfFields p.M.cur.f then p.M.cur.aluResult else p.E.cur.valA) →
    B = (if aluWriteBackEnable p.M.cur.f.mnem = true ∧ aluWriteBackEnable p.E.cur.f.mnem = true ∧
          p.E.cur.f.rnumb = destOfFields p.M.cur.f then p.M.cur.aluResult else p.E.cur.valB) →
    (pipeStep p).M.cur =
      { f := p.E.cur.f
        aluResult := alu p.E.cur.f.mnem A B p.E.cur.valC p.E.cur.data p.E.cur.valP
        valC := p.E.cur.valC
        valA := A
        valP := p.E.cur.valP }

/-- Decode reads each register as this cycle's WriteBack leaves it, and rebuilds the immediate. After a clock E holds the
Decode resident's fields and valP, data = {rnumb, rnuma}, and for each of rnuma, rnumb and rnumc the register's value
with this cycle's commit: the WriteBack resident's aluResult, else its memValue, else the old value (stage order:
decision D15). -/
def Obligations.DecodeReadsSameCyclesCommit : Prop :=
  ∀ (p : PipeState) (v : RegNum → Word),
    (∀ r, v r =
      if aluWriteBackEnable p.W.cur.f.mnem = true ∧ r = destOfFields p.W.cur.f then p.W.cur.aluResult
      else if memoryWriteBackEnable p.W.cur.f.mnem = true ∧ r = p.W.cur.f.rnumc then p.W.cur.memValue
      else RegFile.read p.reg r) →
    (pipeStep p).E.cur =
      { f := p.D.cur.f
        valA := v p.D.cur.f.rnuma
        valB := v p.D.cur.f.rnumb
        valC := v p.D.cur.f.rnumc
        data := p.D.cur.f.rnumb ++ p.D.cur.f.rnuma
        valP := p.D.cur.valP }

/-- Fetch selects among F.pc, aluResult, memValue and valC by the WriteBack opcode, reads there and advances. The
selected pc is valC for a call in WriteBack, memValue for a return, aluResult for a jump or branch (a branch always:
the spec's resolution C5), else F.pc. When no unassigned is in Decode, D gets the fields of the word at the selected
pc in the memory as this cycle's Memory stage leaves it (stage order: decision D15; log entry 14) and valP = sel + 1,
and F.pc becomes sel + 1 modulo 2^16. -/
def Obligations.FetchReadsAtSelectedPc : Prop :=
  ∀ p : PipeState,
    p.sel =
      (if p.W.cur.f.mnem = .call then p.W.cur.valC else if p.W.cur.f.mnem = .ret then p.W.cur.memValue
        else if p.W.cur.f.mnem = .jump ∨ p.W.cur.f.mnem = .branch then p.W.cur.aluResult else p.F.cur.pc) ∧
    (p.D.cur.f.mnem ≠ .unassigned →
      (pipeStep p).D.cur = { f := fieldsOf (Memory.read (pipeStep p).mem p.sel), valP := p.sel + 1 } ∧
        (pipeStep p).F.cur.pc = p.sel + 1)

/-- An unassigned in Decode makes exactly one nop bubble, the pc and a same-cycle redirect are kept, then fetch goes on.
When an unassigned is in Decode, a clock puts the nop word with valP = sel into D and leaves F.pc at the selected pc,
redirect included; if no transfer is then in WriteBack, the next clock fetches the word at that pc (decisions D12,
D13). -/
def Obligations.UnassignedMakesOneBubble : Prop :=
  ∀ p : PipeState, p.D.cur.f.mnem = .unassigned →
    (pipeStep p).D.cur = { f := ⟨0, 0, 0, 0⟩, valP := p.sel } ∧ (pipeStep p).F.cur.pc = p.sel ∧
      (isTransfer p.M.cur.f.mnem = false →
        (pipeStep (pipeStep p)).D.cur.f = fieldsOf (Memory.read (pipeStep (pipeStep p)).mem p.sel) ∧
          (pipeStep (pipeStep p)).F.cur.pc = p.sel + 1)

/-- Every clock moves each resident instruction one stage on; only a bubble or a redirect changes the fetch. In every
state, hazard report or not, a clock moves the fields in D, E and M one stage on; the fetched pc is F.pc unless a
call, return, jump or branch is in WriteBack; F.pc then advances by one unless an unassigned is in Decode, which sends
a nop into D instead; and no instruction in flight is cancelled by a redirect (a report never stalls: decision D14;
both unassigned sub-ops bubble: D12; the bubble keeps the selected pc: D13; log entry 14). -/
def Obligations.NoStallFreezeOrSquash : Prop :=
  ∀ p : PipeState,
    (pipeStep p).E.cur.f = p.D.cur.f ∧ (pipeStep p).M.cur.f = p.E.cur.f ∧ (pipeStep p).W.cur.f = p.M.cur.f ∧
      (isTransfer p.W.cur.f.mnem = false → p.sel = p.F.cur.pc) ∧
      (p.D.cur.f.mnem ≠ .unassigned → (pipeStep p).F.cur.pc = p.sel + 1) ∧
      (p.D.cur.f.mnem = .unassigned → (pipeStep p).F.cur.pc = p.sel ∧ (pipeStep p).D.cur.f.mnem = .nop)

/-- A clock never reads a next half, writes every one of them, and the swap makes each pair equal. Two pipeline states
that agree on registers, memory and the current halves give the same state after a clock, whatever their next halves
hold (so the reset value of the next halves, log entry 3, is never seen); after a clock each next half equals its
current half. -/
def Obligations.ClockReadsOnlyCurrentHalves : Prop :=
  ∀ p q : PipeState,
    (p.reg = q.reg → p.mem = q.mem → p.F.cur = q.F.cur → p.D.cur = q.D.cur → p.E.cur = q.E.cur → p.M.cur = q.M.cur →
      p.W.cur = q.W.cur → pipeStep p = pipeStep q) ∧
    (pipeStep p).F.next = (pipeStep p).F.cur ∧ (pipeStep p).D.next = (pipeStep p).D.cur ∧
      (pipeStep p).E.next = (pipeStep p).E.cur ∧ (pipeStep p).M.next = (pipeStep p).M.cur ∧
      (pipeStep p).W.next = (pipeStep p).W.cur

/-- A word stored by the Memory stage is what Fetch reads from that cell in the same cycle. When a stmem, call or push
is in Memory, the address it stores to is the selected pc and no unassigned is in Decode, a clock puts the fields of
the stored word into D: valA for stmem, valP (the call's link) for call, valC for push (stage order: decision D15). -/
def Obligations.FetchSeesSameCyclesStore : Prop :=
  ∀ p : PipeState, p.M.cur.aluResult = p.sel → p.D.cur.f.mnem ≠ .unassigned →
    (p.M.cur.f.mnem = .stmem → (pipeStep p).D.cur.f = fieldsOf p.M.cur.valA) ∧
      (p.M.cur.f.mnem = .call → (pipeStep p).D.cur.f = fieldsOf p.M.cur.valP) ∧
      (p.M.cur.f.mnem = .push → (pipeStep p).D.cur.f = fieldsOf p.M.cur.valC)

/-- Four clocks of the pipeline do what the reference does for one instruction followed by nops. When an instruction sits
in Decode with nothing else in flight, registers and memory equal to the reference's, and the three words after it are
nops before and after it executes, four clocks leave the pipeline in the same relation to the reference after its
block: one step for a control transfer, three for an unassigned (whose bubble takes a cycle), four otherwise. -/
def Obligations.IsolatedInstructionAgrees : Prop :=
  ∀ (r : RefState) (p : PipeState), Aligned r p → Padded r →
    Aligned (refBlock r) (pipeStep^[4] p)

/-- From reset, a program whose every executed block is padded by nops keeps pipeline and reference in step. For every
image and n, if each of the first n blocks the reference executes from reset is padded by three nops, then after 4n +
1 clocks the pipeline is aligned with the reference after n blocks: same registers, same memory, the reference's next
instruction in Decode (padding and alignment as log entry 15 reads them). -/
def Obligations.PaddedRunAgrees : Prop :=
  ∀ (image : Memory) (n : Nat),
    (∀ j < n, Padded (refBlock^[j] (RefState.resetWith image))) →
      Aligned (refBlock^[n] (RefState.resetWith image)) (pipeStep^[4 * n + 1] (PipeState.resetWith image))

/-- For hazard-free programs the pipeline converges to the reference, with M = N + 3T + U cycles. Lay the reference
run out in slots (one per step, three shadow slots after a control transfer, one bubble after an unassigned). If the
slots below m keep the register-use rule, fetch only nops in shadow slots and meet the self-modifying-code rule, then
after m cycles the pipeline's registers are the reference's after m - 4 slots, its memory that after m - 3 slots, its
pc the next sequential fetch address; the reference is at exactly N steps, and when no slot is pending m = N + 3T + U.
The slot reading of the register-use rule and of the equivalence condition is the model's (DEDUCED, log entry 15). -/
def Obligations.HazardFreeRunAgrees : Prop :=
  ∀ (image : Memory) (m : Nat), HazardFree image m →
    (pipeRun m (PipeState.resetWith image)).reg = (slotRun image (m - 4)).ref.reg ∧
      (pipeRun m (PipeState.resetWith image)).mem = (slotRun image (m - 3)).ref.mem ∧
      (pipeRun m (PipeState.resetWith image)).pc = (slotRun image m).seq ∧
      (slotRun image m).ref = refRun (slotRun image m).steps (RefState.resetWith image) ∧
      ((slotRun image m).slot = .instr →
        m = (slotRun image m).steps + 3 * (slotRun image m).transfers + (slotRun image m).unassigneds)

/-- For hazard-free programs whose last four slots are quiet, the harness's check of N steps and M cycles is Equal. If
the slots below m are hazard-free, the last four hold no control transfer, no unassigned and no register writer and
the last three no store, then the check after N reference steps and m cycles, N the steps among the m slots, reports
Equal. The slot reading of the register-use rule and of the equivalence condition is the model's (DEDUCED, log entry
15). -/
def Obligations.HazardFreeCheckIsEqual : Prop :=
  ∀ (image : Memory) (m : Nat), HazardFree image m → Quiet image m →
    run image (slotRun image m).steps m = .equal

/-- The check is Equal exactly when pc, registers and all cells agree, and otherwise reports the first that does not. For
every pair of model states: Equal exactly when pc = pipe_pc and every register and every cell agree; a register report
means equal pcs and names the lowest register that differs, with both values; a memory report means equal pcs and
registers and names the lowest cell below 65536 that differs, with both values; a pc report means the pcs differ and
carries both (decisions D16, D22, D27). -/
def Obligations.CheckReportsFirstMismatch : Prop :=
  ∀ (r : RefState) (p : PipeState),
    (check r p = .equal ↔
      r.pc = p.F.cur.pc ∧ (∀ i, RegFile.read r.reg i = RegFile.read p.reg i) ∧
        ∀ a : Word, Memory.read r.mem a = Memory.read p.mem a) ∧
    (∀ v w, check r p = .pcMismatch v w ↔ r.pc ≠ p.F.cur.pc ∧ v = r.pc ∧ w = p.F.cur.pc) ∧
    (∀ i v w, check r p = .regMismatch i v w ↔
      r.pc = p.F.cur.pc ∧ RegFile.read r.reg i ≠ RegFile.read p.reg i ∧
        (∀ j, j < i → RegFile.read r.reg j = RegFile.read p.reg j) ∧
        v = RegFile.read r.reg i ∧ w = RegFile.read p.reg i) ∧
    ∀ a v w, check r p = .memMismatch a v w ↔
      r.pc = p.F.cur.pc ∧ (∀ i, RegFile.read r.reg i = RegFile.read p.reg i) ∧ a < 65536 ∧
        Memory.readCell r.mem a ≠ Memory.readCell p.mem a ∧
        (∀ b < a, Memory.readCell r.mem b = Memory.readCell p.mem b) ∧
        v = Memory.readCell r.mem a ∧ w = Memory.readCell p.mem a

/-- Loading an image: which lines are accepted, the last line for an address wins, unset cells read 0, and the first
bad line is a RangeError. A line is accepted as a pair exactly when it has two words, a decimal address of at most
65535 and a decimal value from -32768 to 65535, and as blank exactly when it has no word; the lines at the ends of
both ranges are accepted and those one past them are RangeErrors. If every line is blank or a pair in range, loading
gives a canonical memory whose every cell is trunc16 of the value on the last line for it, else 0; if a line is bad,
loading stops there with a RangeError whatever follows it (decision D21; the letter forms of words and numbers are the
model's, log entry 8). -/
def Obligations.ImageLoadsLastLineStopsAtBadLine : Prop :=
  (∀ (line : List Char) (a : Nat) (v : Int),
      parseImageLine line = .ok (some (a, v)) ↔
        ∃ x y, lineTokens line = [x, y] ∧ decimalNat x = some a ∧ decimalInt y = some v ∧
          a ≤ 65535 ∧ -32768 ≤ v ∧ v ≤ 65535) ∧
    (∀ line : List Char, parseImageLine line = .ok none ↔ lineTokens line = []) ∧
    parseImageLine ['0', ' ', '-', '3', '2', '7', '6', '8'] = .ok (some (0, -32768)) ∧
    parseImageLine ['6', '5', '5', '3', '5', ' ', '6', '5', '5', '3', '5'] = .ok (some (65535, 65535)) ∧
    parseImageLine ['6', '5', '5', '3', '6', ' ', '0'] = .error .range ∧
    parseImageLine ['-', '1', ' ', '0'] = .error .range ∧
    parseImageLine ['0', ' ', '6', '5', '5', '3', '6'] = .error .range ∧
    parseImageLine ['0', ' ', '-', '3', '2', '7', '6', '9'] = .error .range ∧
    (∀ (ls : List (List Char)) (cs : List (Option (Nat × Int))),
      ls.map parseImageLine = cs.map Except.ok →
        ∃ m : Memory, loadImageLines [] ls = .ok m ∧ Memory.wf m ∧
          ∀ a, Memory.readCell m a =
            match ((cs.filterMap id).filter fun c => c.1 == a).getLast? with
            | some c => trunc16 c.2
            | none => 0) ∧
    ∀ (m : Memory) (good rest : List (List Char)) (bad : List Char) (k : ErrorKind),
      (∀ l ∈ good, ∃ c, parseImageLine l = .ok c) → parseImageLine bad = .error k →
        k = .range ∧ loadImageLines m (good ++ bad :: rest) = .error .range

/-- The four fatal error kinds have the source's causes and are reported before any run; a mismatch only after both.
UsageError holds exactly for a wrong number of counts, ParseError for a count that is no integer, RangeError for a
negative count or an image that does not load, IOError for a missing image; if any holds the harness ends with one of
those that hold and no run, otherwise with the report of the run, and EquivalenceMismatch is the error of exactly the
reports other than Equal. Which of several errors is reported is left free by the spec and by the model (log entry 7);
the letter forms of the texts are the model's (log entry 8). -/
def Obligations.HarnessErrorsBeforeAnyRun : Prop :=
  ∀ inv : Invocation,
    (.usage ∈ fatalErrors inv ↔ inv.counts.length ≠ 2) ∧
    (.parse ∈ fatalErrors inv ↔ inv.counts.length = 2 ∧ ∃ c ∈ inv.counts, decimalInt c = none) ∧
    (.range ∈ fatalErrors inv ↔
      (inv.counts.length = 2 ∧ ∃ c ∈ inv.counts, ∃ v, decimalInt c = some v ∧ v < 0) ∨
        ∃ text, inv.image = some text ∧ loadImage text = .error .range) ∧
    (.io ∈ fatalErrors inv ↔ inv.image = none) ∧
    .equivalenceMismatch ∉ fatalErrors inv ∧
    (fatalErrors inv ≠ [] → ∃ k ∈ fatalErrors inv, harness inv = .fatal k) ∧
    (fatalErrors inv = [] → ∃ text image n m,
      inv.image = some text ∧ loadImage text = .ok image ∧ parseCounts inv.counts = .ok (n, m) ∧
        harness inv = .completed (run image n m)) ∧
    ∀ rep : Report, RunResult.error (.completed rep) = if rep = .equal then none else some .equivalenceMismatch

/-- The exit status is 0 exactly when the check gave Equal, whatever the open exit codes are. For every result of the
harness, the exit status is 0 exactly for a completed run reporting Equal; every error kind gives its open, non-zero
code (decision D23). -/
def Obligations.ExitStatusZeroExactlyOnSuccess : Prop :=
  ∀ r : RunResult, (r.exitStatus = 0 ↔ r = .completed .equal) ∧ ∀ k : ErrorKind, RunResult.exitStatus (.fatal k) ≠ 0
end

