-- ==== Sys2Proof/Laws/Decode.lean ====
section
/-! SUPPORT. The fields of an encoded word (R70, R71, R80). -/

namespace Sys2Proof

/-- Which bit of which field each bit of a word is (R70). -/
theorem getLsbD_encBase (fn c b a : Nibble) (i : Nat) :
    (encBase fn c b a).getLsbD i =
      if i < 4 then a.getLsbD i else if i < 8 then b.getLsbD (i - 4) else if i < 12 then c.getLsbD (i - 8)
      else fn.getLsbD (i - 12) := by
  have h : (fn ++ c ++ b ++ a : BitVec (4 + 4 + 4 + 4)).getLsbD i =
      if i < 4 then a.getLsbD i else if i < 8 then b.getLsbD (i - 4) else if i < 12 then c.getLsbD (i - 8)
      else fn.getLsbD (i - 12) := by
    simp only [BitVec.getLsbD_append]
    repeat' split
    all_goals first | rfl | omega
  exact h

/-- The fields of a word written from four fields are those fields. -/
theorem fieldsOf_encBase (fn c b a : Nibble) : fieldsOf (encBase fn c b a) = ⟨fn, c, b, a⟩ := by
  simp only [fieldsOf, Fields.mk.injEq]
  refine ⟨?_, ?_, ?_, ?_⟩ <;> ext i hi <;> rw [BitVec.getElem_extractLsb', getLsbD_encBase] <;>
    interval_cases i <;> simp

theorem fieldsOf_encSub (sub c a : Nibble) : fieldsOf (encSub sub c a) = ⟨0, c, sub, a⟩ := fieldsOf_encBase 0 c sub a

/-- The four fields are the whole word. -/
theorem encBase_fieldsOf (w : Word) :
    encBase (fieldsOf w).fn (fieldsOf w).rnumc (fieldsOf w).rnumb (fieldsOf w).rnuma = w := by
  ext i hi
  rw [← BitVec.getLsbD_eq_getElem, getLsbD_encBase, ← BitVec.getLsbD_eq_getElem]
  interval_cases i <;> simp [fieldsOf]

/-- Which bit of which nibble each bit of a byte is (R76). -/
theorem getLsbD_nibbles (b a : Nibble) (i : Nat) :
    (b ++ a : Byte).getLsbD i = if i < 4 then a.getLsbD i else b.getLsbD (i - 4) := by
  have h : (b ++ a : BitVec (4 + 4)).getLsbD i = if i < 4 then a.getLsbD i else b.getLsbD (i - 4) := by
    simp only [BitVec.getLsbD_append]
  exact h

/-- A byte is its two nibbles (R76). -/
theorem Byte.hi_append_lo (v : Byte) : (Byte.hi v ++ Byte.lo v : Byte) = v := by
  ext i hi
  rw [← BitVec.getLsbD_eq_getElem, getLsbD_nibbles, ← BitVec.getLsbD_eq_getElem]
  interval_cases i <;> simp [Byte.hi, Byte.lo]

theorem Byte.hi_append (b a : Nibble) : Byte.hi (b ++ a) = b := by
  ext i hi
  rw [Byte.hi, BitVec.getElem_extractLsb', getLsbD_nibbles]
  interval_cases i <;> simp

theorem Byte.lo_append (b a : Nibble) : Byte.lo (b ++ a) = a := by
  ext i hi
  rw [Byte.lo, BitVec.getElem_extractLsb', getLsbD_nibbles]
  interval_cases i <;> simp

/-- An immediate's word holds its byte in the `rnumb` and `rnuma` fields (R76). -/
theorem encImm_eq_encBase (fn c : Nibble) (v : Byte) : encImm fn c v = encBase fn c (Byte.hi v) (Byte.lo v) := by
  have h : ∀ i, (encImm fn c v).getLsbD i =
      if i < 8 then v.getLsbD i else if i < 12 then c.getLsbD (i - 8) else fn.getLsbD (i - 12) := by
    intro i
    have h : (fn ++ c ++ v : BitVec (4 + 4 + 8)).getLsbD i =
        if i < 8 then v.getLsbD i else if i < 12 then c.getLsbD (i - 8) else fn.getLsbD (i - 12) := by
      simp only [BitVec.getLsbD_append]
      repeat' split
      all_goals first | rfl | omega
    exact h
  ext i hi
  rw [← BitVec.getLsbD_eq_getElem, ← BitVec.getLsbD_eq_getElem, getLsbD_encBase, h]
  interval_cases i <;> simp [Byte.hi, Byte.lo]

theorem fieldsOf_encImm (fn c : Nibble) (v : Byte) : fieldsOf (encImm fn c v) = ⟨fn, c, Byte.hi v, Byte.lo v⟩ := by
  rw [encImm_eq_encBase, fieldsOf_encBase]

/-! ### Masks (R74) -/

theorem encBase_and_base (fn c b a : Nibble) : encBase fn c b a &&& 0xF000 = encBase fn 0 0 0 := by
  ext i hi
  rw [← BitVec.getLsbD_eq_getElem, ← BitVec.getLsbD_eq_getElem, BitVec.getLsbD_and, getLsbD_encBase, getLsbD_encBase]
  interval_cases i <;> simp

theorem encBase_and_sub (fn c b a : Nibble) : encBase fn c b a &&& 0xF0F0 = encBase fn 0 b 0 := by
  ext i hi
  rw [← BitVec.getLsbD_eq_getElem, ← BitVec.getLsbD_eq_getElem, BitVec.getLsbD_and, getLsbD_encBase, getLsbD_encBase]
  interval_cases i <;> simp

end Sys2Proof
end

