-- ==== Sys2Proof/Laws/Memory.lean ====
section
/-! SUPPORT. What one cell reads after a write, that every memory operation keeps the canonical form, and that canonical
memories that read alike are equal. -/

namespace Sys2Proof.Machine

/-! ### Reading -/

@[simp] theorem Memory.readCell_nil (a : Nat) : Memory.readCell [] a = unlistedCell := rfl

theorem Memory.readCell_cons (b : Nat) (v : Word) (m : Memory) (a : Nat) :
    Memory.readCell ((b, v) :: m) a = if b = a then v else Memory.readCell m a := rfl

theorem Memory.readCell_of_not_listed {m : Memory} {a : Nat} (h : ∀ c ∈ m, c.1 ≠ a) :
    Memory.readCell m a = unlistedCell := by
  induction m with
  | nil => rfl
  | cons c m ih =>
    obtain ⟨b, v⟩ := c
    rw [readCell_cons, if_neg (h (b, v) (by simp)), ih fun c hc => h c (by simp [hc])]

/-! ### Writing -/

theorem Memory.readCell_eraseCell_same (m : Memory) (a : Nat) :
    Memory.readCell (Memory.eraseCell m a) a = unlistedCell :=
  readCell_of_not_listed fun c hc => by simpa [eraseCell] using (List.mem_filter.1 hc).2

theorem Memory.readCell_eraseCell_ne (m : Memory) {a b : Nat} (h : b ≠ a) :
    Memory.readCell (Memory.eraseCell m a) b = Memory.readCell m b := by
  induction m with
  | nil => rfl
  | cons c m ih =>
    obtain ⟨k, v⟩ := c
    by_cases hk : k = a
    · have : eraseCell ((k, v) :: m) a = eraseCell m a := by simp [eraseCell, hk]
      rw [this, ih, readCell_cons, if_neg (by omega)]
    · have : eraseCell ((k, v) :: m) a = (k, v) :: eraseCell m a := by simp [eraseCell, hk]
      rw [this, readCell_cons, readCell_cons, ih]

theorem Memory.readCell_insertCell (m : Memory) (a b : Nat) (v : Word) (h : ∀ c ∈ m, c.1 ≠ a) :
    Memory.readCell (Memory.insertCell m a v) b = if b = a then v else Memory.readCell m b := by
  induction m with
  | nil => simp only [insertCell, readCell_cons, eq_comm]
  | cons c m ih =>
    obtain ⟨k, w⟩ := c
    have hk : k ≠ a := h (k, w) (by simp)
    have ih := ih fun c hc => h c (by simp [hc])
    unfold insertCell
    split
    · rw [readCell_cons]
      simp only [eq_comm (a := a) (b := b)]
    · rw [readCell_cons, ih, readCell_cons]
      split
      · subst k; rw [if_neg hk]
      · rfl

theorem Memory.mem_eraseCell {m : Memory} {a : Nat} {c : Nat × Word} (h : c ∈ Memory.eraseCell m a) :
    c ∈ m ∧ c.1 ≠ a := by
  simpa [eraseCell] using h

/-- A read after a write, in any memory: the written cell holds the value, every other cell what it held (R55, R56). -/
theorem Memory.readCell_writeCell (m : Memory) (a b : Nat) (v : Word) :
    Memory.readCell (Memory.writeCell m a v) b = if b = a then v else Memory.readCell m b := by
  unfold writeCell
  split
  · subst v
    split
    · subst b; exact readCell_eraseCell_same m a
    · exact readCell_eraseCell_ne m ‹_›
  · rw [readCell_insertCell _ _ _ _ fun c hc => (mem_eraseCell hc).2]
    split
    · rfl
    · exact readCell_eraseCell_ne m ‹_›

theorem Memory.read_write (m : Memory) (a b v : Word) :
    Memory.read (Memory.write m a v) b = if b = a then v else Memory.read m b := by
  simp only [read, write, readCell_writeCell, BitVec.toNat_inj]

/-! ### The canonical form -/

theorem Memory.wf_nil : Memory.wf [] := by simp [wf]

theorem Memory.wf_tail {c : Nat × Word} {m : Memory} (h : Memory.wf (c :: m)) : Memory.wf m :=
  ⟨(List.pairwise_cons.1 h.1).2, fun d hd => h.2 d (by simp [hd])⟩

theorem Memory.eraseCell_wf {m : Memory} (h : Memory.wf m) (a : Nat) : Memory.wf (Memory.eraseCell m a) :=
  ⟨h.1.filter _, fun c hc => h.2 c (mem_eraseCell hc).1⟩

theorem Memory.mem_insertCell {m : Memory} {a : Nat} {v : Word} {c : Nat × Word}
    (h : c ∈ Memory.insertCell m a v) : c = (a, v) ∨ c ∈ m := by
  induction m with
  | nil => simpa [insertCell] using h
  | cons d m ih =>
    obtain ⟨k, w⟩ := d
    unfold insertCell at h
    split at h
    · simpa using h
    · rcases List.mem_cons.1 h with h | h
      · exact .inr (by simp [h])
      · exact (ih h).imp id fun h => by simp [h]

theorem Memory.insertCell_wf {m : Memory} (h : Memory.wf m) {a : Nat} {v : Word} (ha : a < memWords)
    (hv : v ≠ unlistedCell) (hm : ∀ c ∈ m, c.1 ≠ a) : Memory.wf (Memory.insertCell m a v) := by
  refine ⟨?_, fun c hc => ?_⟩
  · induction m with
    | nil => simp [insertCell]
    | cons d m ih =>
      obtain ⟨k, w⟩ := d
      have hk : k ≠ a := hm (k, w) (by simp)
      have hrest := List.pairwise_cons.1 h.1
      unfold insertCell
      split
      · refine List.pairwise_cons.2 ⟨fun c hc => ?_, h.1⟩
        rcases List.mem_cons.1 hc with rfl | hc
        · assumption
        · have := hrest.1 c hc
          simp only at this ⊢
          omega
      · refine List.pairwise_cons.2 ⟨fun c hc => ?_, ih (wf_tail h) fun c hc => hm c (by simp [hc])⟩
        rcases mem_insertCell hc with rfl | hc
        · simp only
          omega
        · exact hrest.1 c hc
  · rcases mem_insertCell hc with rfl | hc
    · exact ⟨ha, hv⟩
    · exact h.2 c hc

/-- Every write keeps the canonical form. -/
theorem Memory.writeCell_wf {m : Memory} (h : Memory.wf m) {a : Nat} (ha : a < memWords) (v : Word) :
    Memory.wf (Memory.writeCell m a v) := by
  unfold writeCell
  split
  · exact eraseCell_wf h a
  · exact insertCell_wf (eraseCell_wf h a) ha ‹_› fun c hc => (mem_eraseCell hc).2

theorem Memory.write_wf {m : Memory} (h : Memory.wf m) (a v : Word) : Memory.wf (Memory.write m a v) :=
  writeCell_wf h a.isLt v

/-- Canonical memories that read alike at every word index are equal. -/
theorem Memory.ext_of_readCell {m n : Memory} (hm : Memory.wf m) (hn : Memory.wf n)
    (h : ∀ a, Memory.readCell m a = Memory.readCell n a) : m = n := by
  induction m generalizing n with
  | nil =>
    cases n with
    | nil => rfl
    | cons d n =>
      obtain ⟨k, w⟩ := d
      have := h k
      simp only [readCell_nil, readCell_cons, if_true] at this
      exact absurd this.symm (hn.2 (k, w) (by simp)).2
  | cons c m ih =>
    obtain ⟨b, v⟩ := c
    have hb := List.pairwise_cons.1 hm.1
    have hbv := (hm.2 (b, v) (by simp)).2
    cases n with
    | nil =>
      have := h b
      simp only [readCell_nil, readCell_cons, if_true] at this
      exact absurd this hbv
    | cons d n =>
      obtain ⟨k, w⟩ := d
      have hk := List.pairwise_cons.1 hn.1
      have hkw := (hn.2 (k, w) (by simp)).2
      have below {l : Memory} {x : Nat} (hl : ∀ c ∈ l, x < c.1) {y : Nat} (hy : y ≤ x) :
          readCell l y = unlistedCell :=
        readCell_of_not_listed fun c hc => by have := hl c hc; omega
      rcases lt_trichotomy b k with hlt | rfl | hlt
      · have := h b
        rw [readCell_cons, if_pos rfl, readCell_cons, if_neg (by omega), below hk.1 (by simp only; omega)] at this
        exact absurd this hbv
      · have hv := h b
        rw [readCell_cons, if_pos rfl, readCell_cons, if_pos rfl] at hv
        subst hv
        rw [ih (wf_tail hm) (wf_tail hn) fun a => ?_]
        have := h a
        rw [readCell_cons, readCell_cons] at this
        split at this
        · subst a
          rw [below hb.1 (le_refl _), below hk.1 (le_refl _)]
        · exact this
      · have := h k
        rw [readCell_cons, if_neg (by omega), readCell_cons, if_pos rfl, below hb.1 (by simp only; omega)] at this
        exact absurd this.symm hkw

end Sys2Proof.Machine
end

