-- ==== Sys2Proof/Laws/State.lean ====
section
/-! SUPPORT. The fields of every named update of the state, each true by definition. -/

namespace Sys2Proof.Machine

@[simp] theorem State.withRef_ref (s : State) (r : RefState) : (s.withRef r).ref = r := rfl
@[simp] theorem State.withRef_pipe (s : State) (r : RefState) : (s.withRef r).pipe = s.pipe := rfl
@[simp] theorem State.withPipe_ref (s : State) (p : PipeState) : (s.withPipe p).ref = s.ref := rfl
@[simp] theorem State.withPipe_pipe (s : State) (p : PipeState) : (s.withPipe p).pipe = p := rfl

@[simp] theorem PipeState.withReg_reg (p : PipeState) (v : RegFile) : (p.withReg v).reg = v := rfl
@[simp] theorem PipeState.withReg_mem (p : PipeState) (v : RegFile) : (p.withReg v).mem = p.mem := rfl
@[simp] theorem PipeState.withReg_F (p : PipeState) (v : RegFile) : (p.withReg v).F = p.F := rfl
@[simp] theorem PipeState.withReg_D (p : PipeState) (v : RegFile) : (p.withReg v).D = p.D := rfl
@[simp] theorem PipeState.withReg_E (p : PipeState) (v : RegFile) : (p.withReg v).E = p.E := rfl
@[simp] theorem PipeState.withReg_M (p : PipeState) (v : RegFile) : (p.withReg v).M = p.M := rfl
@[simp] theorem PipeState.withReg_W (p : PipeState) (v : RegFile) : (p.withReg v).W = p.W := rfl

@[simp] theorem PipeState.withMem_reg (p : PipeState) (v : Memory) : (p.withMem v).reg = p.reg := rfl
@[simp] theorem PipeState.withMem_mem (p : PipeState) (v : Memory) : (p.withMem v).mem = v := rfl
@[simp] theorem PipeState.withMem_F (p : PipeState) (v : Memory) : (p.withMem v).F = p.F := rfl
@[simp] theorem PipeState.withMem_D (p : PipeState) (v : Memory) : (p.withMem v).D = p.D := rfl
@[simp] theorem PipeState.withMem_E (p : PipeState) (v : Memory) : (p.withMem v).E = p.E := rfl
@[simp] theorem PipeState.withMem_M (p : PipeState) (v : Memory) : (p.withMem v).M = p.M := rfl
@[simp] theorem PipeState.withMem_W (p : PipeState) (v : Memory) : (p.withMem v).W = p.W := rfl

@[simp] theorem PipeState.nextF_reg (p : PipeState) (v : FReg) : (p.nextF v).reg = p.reg := rfl
@[simp] theorem PipeState.nextF_mem (p : PipeState) (v : FReg) : (p.nextF v).mem = p.mem := rfl
@[simp] theorem PipeState.nextF_D (p : PipeState) (v : FReg) : (p.nextF v).D = p.D := rfl
@[simp] theorem PipeState.nextF_E (p : PipeState) (v : FReg) : (p.nextF v).E = p.E := rfl
@[simp] theorem PipeState.nextF_M (p : PipeState) (v : FReg) : (p.nextF v).M = p.M := rfl
@[simp] theorem PipeState.nextF_W (p : PipeState) (v : FReg) : (p.nextF v).W = p.W := rfl
@[simp] theorem PipeState.nextF_F_cur (p : PipeState) (v : FReg) : (p.nextF v).F.cur = p.F.cur := rfl
@[simp] theorem PipeState.nextF_F_next (p : PipeState) (v : FReg) : (p.nextF v).F.next = v := rfl

@[simp] theorem PipeState.nextD_reg (p : PipeState) (v : DReg) : (p.nextD v).reg = p.reg := rfl
@[simp] theorem PipeState.nextD_mem (p : PipeState) (v : DReg) : (p.nextD v).mem = p.mem := rfl
@[simp] theorem PipeState.nextD_F (p : PipeState) (v : DReg) : (p.nextD v).F = p.F := rfl
@[simp] theorem PipeState.nextD_E (p : PipeState) (v : DReg) : (p.nextD v).E = p.E := rfl
@[simp] theorem PipeState.nextD_M (p : PipeState) (v : DReg) : (p.nextD v).M = p.M := rfl
@[simp] theorem PipeState.nextD_W (p : PipeState) (v : DReg) : (p.nextD v).W = p.W := rfl
@[simp] theorem PipeState.nextD_D_cur (p : PipeState) (v : DReg) : (p.nextD v).D.cur = p.D.cur := rfl
@[simp] theorem PipeState.nextD_D_next (p : PipeState) (v : DReg) : (p.nextD v).D.next = v := rfl

@[simp] theorem PipeState.nextE_reg (p : PipeState) (v : EReg) : (p.nextE v).reg = p.reg := rfl
@[simp] theorem PipeState.nextE_mem (p : PipeState) (v : EReg) : (p.nextE v).mem = p.mem := rfl
@[simp] theorem PipeState.nextE_F (p : PipeState) (v : EReg) : (p.nextE v).F = p.F := rfl
@[simp] theorem PipeState.nextE_D (p : PipeState) (v : EReg) : (p.nextE v).D = p.D := rfl
@[simp] theorem PipeState.nextE_M (p : PipeState) (v : EReg) : (p.nextE v).M = p.M := rfl
@[simp] theorem PipeState.nextE_W (p : PipeState) (v : EReg) : (p.nextE v).W = p.W := rfl
@[simp] theorem PipeState.nextE_E_cur (p : PipeState) (v : EReg) : (p.nextE v).E.cur = p.E.cur := rfl
@[simp] theorem PipeState.nextE_E_next (p : PipeState) (v : EReg) : (p.nextE v).E.next = v := rfl

@[simp] theorem PipeState.nextM_reg (p : PipeState) (v : MReg) : (p.nextM v).reg = p.reg := rfl
@[simp] theorem PipeState.nextM_mem (p : PipeState) (v : MReg) : (p.nextM v).mem = p.mem := rfl
@[simp] theorem PipeState.nextM_F (p : PipeState) (v : MReg) : (p.nextM v).F = p.F := rfl
@[simp] theorem PipeState.nextM_D (p : PipeState) (v : MReg) : (p.nextM v).D = p.D := rfl
@[simp] theorem PipeState.nextM_E (p : PipeState) (v : MReg) : (p.nextM v).E = p.E := rfl
@[simp] theorem PipeState.nextM_W (p : PipeState) (v : MReg) : (p.nextM v).W = p.W := rfl
@[simp] theorem PipeState.nextM_M_cur (p : PipeState) (v : MReg) : (p.nextM v).M.cur = p.M.cur := rfl
@[simp] theorem PipeState.nextM_M_next (p : PipeState) (v : MReg) : (p.nextM v).M.next = v := rfl

@[simp] theorem PipeState.nextW_reg (p : PipeState) (v : WReg) : (p.nextW v).reg = p.reg := rfl
@[simp] theorem PipeState.nextW_mem (p : PipeState) (v : WReg) : (p.nextW v).mem = p.mem := rfl
@[simp] theorem PipeState.nextW_F (p : PipeState) (v : WReg) : (p.nextW v).F = p.F := rfl
@[simp] theorem PipeState.nextW_D (p : PipeState) (v : WReg) : (p.nextW v).D = p.D := rfl
@[simp] theorem PipeState.nextW_E (p : PipeState) (v : WReg) : (p.nextW v).E = p.E := rfl
@[simp] theorem PipeState.nextW_M (p : PipeState) (v : WReg) : (p.nextW v).M = p.M := rfl
@[simp] theorem PipeState.nextW_W_cur (p : PipeState) (v : WReg) : (p.nextW v).W.cur = p.W.cur := rfl
@[simp] theorem PipeState.nextW_W_next (p : PipeState) (v : WReg) : (p.nextW v).W.next = v := rfl

@[simp] theorem PipeState.withMemoryValA_reg (p : PipeState) (v : Word) : (p.withMemoryValA v).reg = p.reg := rfl
@[simp] theorem PipeState.withMemoryValA_mem (p : PipeState) (v : Word) : (p.withMemoryValA v).mem = p.mem := rfl
@[simp] theorem PipeState.withMemoryValA_F (p : PipeState) (v : Word) : (p.withMemoryValA v).F = p.F := rfl
@[simp] theorem PipeState.withMemoryValA_D (p : PipeState) (v : Word) : (p.withMemoryValA v).D = p.D := rfl
@[simp] theorem PipeState.withMemoryValA_E (p : PipeState) (v : Word) : (p.withMemoryValA v).E = p.E := rfl
@[simp] theorem PipeState.withMemoryValA_W (p : PipeState) (v : Word) : (p.withMemoryValA v).W = p.W := rfl
@[simp] theorem PipeState.withMemoryValA_M_cur (p : PipeState) (v : Word) :
    (p.withMemoryValA v).M.cur = { p.M.cur with valA := v } := rfl
@[simp] theorem PipeState.withMemoryValA_M_next (p : PipeState) (v : Word) : (p.withMemoryValA v).M.next = p.M.next := rfl

@[simp] theorem PipeState.swap_reg (p : PipeState) : p.swap.reg = p.reg := rfl
@[simp] theorem PipeState.swap_mem (p : PipeState) : p.swap.mem = p.mem := rfl
@[simp] theorem PipeState.swap_F_cur (p : PipeState) : p.swap.F.cur = p.F.next := rfl
@[simp] theorem PipeState.swap_F_next (p : PipeState) : p.swap.F.next = p.F.next := rfl
@[simp] theorem PipeState.swap_D_cur (p : PipeState) : p.swap.D.cur = p.D.next := rfl
@[simp] theorem PipeState.swap_D_next (p : PipeState) : p.swap.D.next = p.D.next := rfl
@[simp] theorem PipeState.swap_E_cur (p : PipeState) : p.swap.E.cur = p.E.next := rfl
@[simp] theorem PipeState.swap_E_next (p : PipeState) : p.swap.E.next = p.E.next := rfl
@[simp] theorem PipeState.swap_M_cur (p : PipeState) : p.swap.M.cur = p.M.next := rfl
@[simp] theorem PipeState.swap_M_next (p : PipeState) : p.swap.M.next = p.M.next := rfl
@[simp] theorem PipeState.swap_W_cur (p : PipeState) : p.swap.W.cur = p.W.next := rfl
@[simp] theorem PipeState.swap_W_next (p : PipeState) : p.swap.W.next = p.W.next := rfl

end Sys2Proof.Machine
end

