-- ==== Sys2Proof/Laws/Ops.lean ====
section
/-! SUPPORT. What each shared operation can do, said once: registers, the data access, the write-back, and an
instruction's meaning. -/

namespace Sys2Proof.Machine

/-! ### Registers -/

/-- A read after a write of the register file: the written register holds the value, every other what it held. -/
theorem RegFile.read_write (x : RegFile) (i r : RegNum) (v : Word) :
    RegFile.read (RegFile.write x i v) r = if r = i then v else RegFile.read x r := by
  simp only [RegFile.read, RegFile.write, Vector.getElem_set]
  simp only [BitVec.toNat_inj, eq_comm (a := i)]

@[simp] theorem RegFile.read_zero (r : RegNum) : RegFile.read RegFile.zero r = 0 := by
  simp [RegFile.read, RegFile.zero]

/-- Register files that read alike are equal. -/
theorem RegFile.ext_of_read {x y : RegFile} (h : ∀ r, RegFile.read x r = RegFile.read y r) : x = y := by
  apply Vector.ext
  intro i hi
  have := h (BitVec.ofNat 4 i)
  simpa [RegFile.read, Nat.mod_eq_of_lt hi] using this

/-! ### The data access (R131) -/

/-- Everything a data access can do: it reads the addressed cell and changes nothing, or writes it and returns zero, or
does nothing and returns zero. -/
theorem memAccess_cases (m : Mnemonic) (aluResult valA valC valP : Word) (mem : Memory) :
    (memoryAccessKind m = .read ∧
      memAccess m aluResult valA valC valP mem = (Memory.read mem (accessAddress m aluResult valA), mem)) ∨
    (memoryAccessKind m = .write ∧
      memAccess m aluResult valA valC valP mem =
        (0, Memory.write mem (accessAddress m aluResult valA) (accessData m valA valC valP))) ∨
    (memoryAccessKind m = .none ∧ memAccess m aluResult valA valC valP mem = (0, mem)) := by
  unfold memAccess
  cases memoryAccessKind m <;> simp

/-- A data access keeps the canonical form. -/
theorem memAccess_wf {mem : Memory} (h : Memory.wf mem) (m : Mnemonic) (aluResult valA valC valP : Word) :
    Memory.wf (memAccess m aluResult valA valC valP mem).2 := by
  rcases memAccess_cases m aluResult valA valC valP mem with ⟨-, e⟩ | ⟨-, e⟩ | ⟨-, e⟩ <;> rw [e]
  · exact h
  · exact Memory.write_wf h _ _
  · exact h

/-! ### Write-back (R129) -/

/-- Every register after a write-back: the ALU result where that is committed, else the memory value where that is, else
what it held. -/
theorem commitWB_read (m : Mnemonic) (rnumc rnuma : RegNum) (aluResult memValue : Word) (x : RegFile) (r : RegNum) :
    RegFile.read (commitWB m rnumc rnuma aluResult memValue x) r =
      if aluWriteBackEnable m = true ∧ r = destOf m rnumc rnuma then aluResult
      else if memoryWriteBackEnable m = true ∧ r = rnumc then memValue
      else RegFile.read x r := by
  unfold commitWB
  cases aluWriteBackEnable m <;> cases memoryWriteBackEnable m <;> simp [RegFile.read_write]

/-! ### An instruction's meaning (R250) -/

/-- The reference step is the shared execution of the fetched fields. -/
theorem refStep_eq (r : RefState) :
    refStep r = refExecute (fieldsOf (Memory.read r.mem r.pc)).mnem (fieldsOf (Memory.read r.mem r.pc)).rnumc
      (fieldsOf (Memory.read r.mem r.pc)).rnumb (fieldsOf (Memory.read r.mem r.pc)).rnuma r := rfl

/-- A meaning answers a next state, the one whose reference part it has executed; it never faults or refuses. -/
theorem executed_eq (m : Mnemonic) (c b a : RegNum) (s : State) :
    executed m c b a s = .next (s.withRef (refExecute m c b a s.ref)) := rfl

/-- If a meaning answers `t`, then `t` is `s` with the reference part executed. -/
theorem executed_next {m : Mnemonic} {c b a : RegNum} {s t : State} (h : executed m c b a s = .next t) :
    t = s.withRef (refExecute m c b a s.ref) := by
  cases h; rfl

/-- Execution keeps the canonical form of the memory. -/
theorem refExecute_wf {r : RefState} (h : Memory.wf r.mem) (m : Mnemonic) (c b a : RegNum) :
    Memory.wf (refExecute m c b a r).mem :=
  memAccess_wf h _ _ _ _ _

end Sys2Proof.Machine
end

