-- ==== Sys2Proof/Laws/PerInstr.lean ====
section
/-! SUPPORT. Statements about every instruction, one lemma per constructor: the word of an instruction belongs to the row of
the opcode table that carries its mnemonic (R74). -/

namespace Sys2Proof.Laws

/-- The instruction's word matches a row of the table with its mnemonic. -/
def TableRow.Statement (i : Instr) : Prop :=
  ∃ row ∈ opcodeRows, row.mnemonic = i.mnemonic ∧ row.holds (encode i) = true

theorem rowHolds_base {m : Mnemonic} {fn : Nibble} (c b a : Nibble) {p : Word} (h : encBase fn 0 0 0 = p) :
    OpcodeRow.holds ⟨m, 0xF000, p⟩ (encBase fn c b a) = true := by
  simp only [OpcodeRow.holds, encBase_and_base, h, beq_self_eq_true]

theorem rowHolds_sub {m : Mnemonic} {sub : Nibble} (c a : Nibble) {p : Word} (h : encBase 0 0 sub 0 = p) :
    OpcodeRow.holds ⟨m, 0xF0F0, p⟩ (encSub sub c a) = true := by
  simp only [OpcodeRow.holds, encSub, ← encBase.eq_def, encBase_and_sub, h, beq_self_eq_true]

theorem rowHolds_imm {m : Mnemonic} {fn : Nibble} (c : Nibble) (v : Byte) {p : Word} (h : encBase fn 0 0 0 = p) :
    OpcodeRow.holds ⟨m, 0xF000, p⟩ (encImm fn c v) = true := by
  rw [encImm_eq_encBase]
  exact rowHolds_base _ _ _ h

end Sys2Proof.Laws

open Sys2Proof Sys2Proof.Laws

theorem Sys2Proof.Laws.TableRow.nop (freeC freeA : Nibble) : TableRow.Statement (.nop freeC freeA) :=
  ⟨⟨.nop, 0xF0F0, 0x0000⟩, by decide, rfl, rowHolds_sub _ _ (by decide)⟩

theorem Sys2Proof.Laws.TableRow.ldmem (rC rA : Nibble) : TableRow.Statement (.ldmem rC rA) :=
  ⟨⟨.ldmem, 0xF0F0, 0x0010⟩, by decide, rfl, rowHolds_sub _ _ (by decide)⟩

theorem Sys2Proof.Laws.TableRow.stmem (rC rA : Nibble) : TableRow.Statement (.stmem rC rA) :=
  ⟨⟨.stmem, 0xF0F0, 0x0020⟩, by decide, rfl, rowHolds_sub _ _ (by decide)⟩

theorem Sys2Proof.Laws.TableRow.call (rC rA : Nibble) : TableRow.Statement (.call rC rA) :=
  ⟨⟨.call, 0xF0F0, 0x0030⟩, by decide, rfl, rowHolds_sub _ _ (by decide)⟩

theorem Sys2Proof.Laws.TableRow.ret (freeC rA : Nibble) : TableRow.Statement (.ret freeC rA) :=
  ⟨⟨.ret, 0xF0F0, 0x0040⟩, by decide, rfl, rowHolds_sub _ _ (by decide)⟩

theorem Sys2Proof.Laws.TableRow.jump (freeC rA : Nibble) : TableRow.Statement (.jump freeC rA) :=
  ⟨⟨.jump, 0xF0F0, 0x0050⟩, by decide, rfl, rowHolds_sub _ _ (by decide)⟩

theorem Sys2Proof.Laws.TableRow.branch (rC rA : Nibble) : TableRow.Statement (.branch rC rA) :=
  ⟨⟨.branch, 0xF0F0, 0x0060⟩, by decide, rfl, rowHolds_sub _ _ (by decide)⟩

theorem Sys2Proof.Laws.TableRow.unassigned7 (freeC freeA : Nibble) : TableRow.Statement (.unassigned7 freeC freeA) :=
  ⟨⟨.unassigned, 0xF0F0, 0x0070⟩, by decide, rfl, rowHolds_sub _ _ (by decide)⟩

theorem Sys2Proof.Laws.TableRow.unassigned8 (freeC freeA : Nibble) : TableRow.Statement (.unassigned8 freeC freeA) :=
  ⟨⟨.unassigned, 0xF0F0, 0x0080⟩, by decide, rfl, rowHolds_sub _ _ (by decide)⟩

theorem Sys2Proof.Laws.TableRow.pop (rC rA : Nibble) : TableRow.Statement (.pop rC rA) :=
  ⟨⟨.pop, 0xF0F0, 0x0090⟩, by decide, rfl, rowHolds_sub _ _ (by decide)⟩

theorem Sys2Proof.Laws.TableRow.push (rC rA : Nibble) : TableRow.Statement (.push rC rA) :=
  ⟨⟨.push, 0xF0F0, 0x00A0⟩, by decide, rfl, rowHolds_sub _ _ (by decide)⟩

theorem Sys2Proof.Laws.TableRow.not (rC rA : Nibble) : TableRow.Statement (.not rC rA) :=
  ⟨⟨.not, 0xF0F0, 0x00B0⟩, by decide, rfl, rowHolds_sub _ _ (by decide)⟩

theorem Sys2Proof.Laws.TableRow.neg (rC rA : Nibble) : TableRow.Statement (.neg rC rA) :=
  ⟨⟨.neg, 0xF0F0, 0x00C0⟩, by decide, rfl, rowHolds_sub _ _ (by decide)⟩

theorem Sys2Proof.Laws.TableRow.cnot (rC rA : Nibble) : TableRow.Statement (.cnot rC rA) :=
  ⟨⟨.cnot, 0xF0F0, 0x00D0⟩, by decide, rfl, rowHolds_sub _ _ (by decide)⟩

theorem Sys2Proof.Laws.TableRow.popcount (rC rA : Nibble) : TableRow.Statement (.popcount rC rA) :=
  ⟨⟨.popcount, 0xF0F0, 0x00E0⟩, by decide, rfl, rowHolds_sub _ _ (by decide)⟩

theorem Sys2Proof.Laws.TableRow.bitrev (rC rA : Nibble) : TableRow.Statement (.bitrev rC rA) :=
  ⟨⟨.bitrev, 0xF0F0, 0x00F0⟩, by decide, rfl, rowHolds_sub _ _ (by decide)⟩

theorem Sys2Proof.Laws.TableRow.add (rC rB rA : RegNum) : TableRow.Statement (.add rC rB rA) :=
  ⟨⟨.add, 0xF000, 0x1000⟩, by decide, rfl, rowHolds_base _ _ _ (by decide)⟩

theorem Sys2Proof.Laws.TableRow.sub (rC rB rA : RegNum) : TableRow.Statement (.sub rC rB rA) :=
  ⟨⟨.sub, 0xF000, 0x2000⟩, by decide, rfl, rowHolds_base _ _ _ (by decide)⟩

theorem Sys2Proof.Laws.TableRow.mul (rC rB rA : RegNum) : TableRow.Statement (.mul rC rB rA) :=
  ⟨⟨.mul, 0xF000, 0x3000⟩, by decide, rfl, rowHolds_base _ _ _ (by decide)⟩

theorem Sys2Proof.Laws.TableRow.div (rC rB rA : RegNum) : TableRow.Statement (.div rC rB rA) :=
  ⟨⟨.div, 0xF000, 0x4000⟩, by decide, rfl, rowHolds_base _ _ _ (by decide)⟩

theorem Sys2Proof.Laws.TableRow.xor (rC rB rA : RegNum) : TableRow.Statement (.xor rC rB rA) :=
  ⟨⟨.xor, 0xF000, 0x5000⟩, by decide, rfl, rowHolds_base _ _ _ (by decide)⟩

theorem Sys2Proof.Laws.TableRow.and (rC rB rA : RegNum) : TableRow.Statement (.and rC rB rA) :=
  ⟨⟨.and, 0xF000, 0x6000⟩, by decide, rfl, rowHolds_base _ _ _ (by decide)⟩

theorem Sys2Proof.Laws.TableRow.or (rC rB rA : RegNum) : TableRow.Statement (.or rC rB rA) :=
  ⟨⟨.or, 0xF000, 0x7000⟩, by decide, rfl, rowHolds_base _ _ _ (by decide)⟩

theorem Sys2Proof.Laws.TableRow.shl (rC rB rA : RegNum) : TableRow.Statement (.shl rC rB rA) :=
  ⟨⟨.shl, 0xF000, 0x8000⟩, by decide, rfl, rowHolds_base _ _ _ (by decide)⟩

theorem Sys2Proof.Laws.TableRow.shr (rC rB rA : RegNum) : TableRow.Statement (.shr rC rB rA) :=
  ⟨⟨.shr, 0xF000, 0x9000⟩, by decide, rfl, rowHolds_base _ _ _ (by decide)⟩

theorem Sys2Proof.Laws.TableRow.lt (rC rB rA : RegNum) : TableRow.Statement (.lt rC rB rA) :=
  ⟨⟨.lt, 0xF000, 0xA000⟩, by decide, rfl, rowHolds_base _ _ _ (by decide)⟩

theorem Sys2Proof.Laws.TableRow.le (rC rB rA : RegNum) : TableRow.Statement (.le rC rB rA) :=
  ⟨⟨.le, 0xF000, 0xB000⟩, by decide, rfl, rowHolds_base _ _ _ (by decide)⟩

theorem Sys2Proof.Laws.TableRow.cmove (rC rB rA : RegNum) : TableRow.Statement (.cmove rC rB rA) :=
  ⟨⟨.cmove, 0xF000, 0xC000⟩, by decide, rfl, rowHolds_base _ _ _ (by decide)⟩

theorem Sys2Proof.Laws.TableRow.cadd (rC rB rA : RegNum) : TableRow.Statement (.cadd rC rB rA) :=
  ⟨⟨.cadd, 0xF000, 0xD000⟩, by decide, rfl, rowHolds_base _ _ _ (by decide)⟩

theorem Sys2Proof.Laws.TableRow.immlow (rC : RegNum) (imm8 : Byte) : TableRow.Statement (.immlow rC imm8) :=
  ⟨⟨.immlow, 0xF000, 0xE000⟩, by decide, rfl, rowHolds_imm _ _ (by decide)⟩

theorem Sys2Proof.Laws.TableRow.immhigh (rC : RegNum) (imm8 : Byte) : TableRow.Statement (.immhigh rC imm8) :=
  ⟨⟨.immhigh, 0xF000, 0xF000⟩, by decide, rfl, rowHolds_imm _ _ (by decide)⟩
end

