-- ==== Sys2Proof/Laws/Pipeline.lean ====
section
/-! SUPPORT. One clock of the pipeline, field by field: what each pipeline register, the register file and the memory hold
after `pipeStep`. -/

namespace Sys2Proof.Machine

/-- The register file after a clock: WriteBack's commit, nothing else. -/
theorem pipeStep_reg (p : PipeState) :
    (pipeStep p).reg =
      commitWB p.W.cur.f.mnem p.W.cur.f.rnumc p.W.cur.f.rnuma p.W.cur.aluResult p.W.cur.memValue p.reg := by
  unfold pipeStep fetchStage
  split <;> rfl

/-- The memory after a clock: the Memory stage's access, nothing else. -/
theorem pipeStep_mem (p : PipeState) : (pipeStep p).mem = (memoryStageAccess p).2 := by
  unfold pipeStep fetchStage
  split <;> rfl

/-- `W` after a clock. -/
theorem pipeStep_W_cur (p : PipeState) :
    (pipeStep p).W.cur =
      { f := p.M.cur.f, aluResult := p.M.cur.aluResult, memValue := (memoryStageAccess p).1, valC := p.M.cur.valC } := by
  unfold pipeStep fetchStage
  split <;> rfl

/-- `M` after a clock. -/
theorem pipeStep_M_cur (p : PipeState) :
    (pipeStep p).M.cur =
      { f := p.E.cur.f
        aluResult := alu p.E.cur.f.mnem p.opA p.opB p.E.cur.valC p.E.cur.data p.E.cur.valP
        valC := p.E.cur.valC
        valA := p.opA
        valP := p.E.cur.valP } := by
  unfold pipeStep fetchStage
  split <;> rfl

/-- `E` after a clock: the registers are read after WriteBack's commit. -/
theorem pipeStep_E_cur (p : PipeState) :
    (pipeStep p).E.cur =
      { f := p.D.cur.f
        valA := RegFile.read (pipeStep p).reg p.D.cur.f.rnuma
        valB := RegFile.read (pipeStep p).reg p.D.cur.f.rnumb
        valC := RegFile.read (pipeStep p).reg p.D.cur.f.rnumc
        data := p.D.cur.f.data
        valP := p.D.cur.valP } := by
  rw [pipeStep_reg]
  unfold pipeStep fetchStage
  split <;> rfl

/-- `D` after a clock: the bubble word, or the word at the selected pc, read after the Memory stage's access. -/
theorem pipeStep_D_cur (p : PipeState) :
    (pipeStep p).D.cur =
      if bubbleInsert p.D.cur.f.mnem then { f := bubbleFields, valP := p.sel }
      else { f := fieldsOf (Memory.read (pipeStep p).mem p.sel), valP := p.sel + 1 } := by
  rw [pipeStep_mem]
  unfold pipeStep fetchStage
  split
  · rw [if_pos (by assumption)]; rfl
  · rw [if_neg (by assumption)]; rfl

/-- `F` after a clock. -/
theorem pipeStep_F_cur (p : PipeState) :
    (pipeStep p).F.cur = if bubbleInsert p.D.cur.f.mnem then { pc := p.sel } else { pc := p.sel + 1 } := by
  unfold pipeStep fetchStage
  split
  · rw [if_pos (by assumption)]; rfl
  · rw [if_neg (by assumption)]; rfl

/-- The swap leaves every pair equal. -/
theorem pipeStep_next (p : PipeState) :
    (pipeStep p).F.next = (pipeStep p).F.cur ∧ (pipeStep p).D.next = (pipeStep p).D.cur ∧
      (pipeStep p).E.next = (pipeStep p).E.cur ∧ (pipeStep p).M.next = (pipeStep p).M.cur ∧
        (pipeStep p).W.next = (pipeStep p).W.cur :=
  ⟨rfl, rfl, rfl, rfl, rfl⟩

/-- A clock keeps the canonical form of the memory. -/
theorem pipeStep_mem_wf {p : PipeState} (h : Memory.wf p.mem) : Memory.wf (pipeStep p).mem := by
  rw [pipeStep_mem]
  exact memAccess_wf h _ _ _ _ _

end Sys2Proof.Machine
end

