-- ==== Sys2Proof/Laws/Step.lean ====
section
/-! SUPPORT. Every meaning is the shared execution of its instruction's mnemonic and fields, so a later proof need not
unfold the dispatch. -/

namespace Sys2Proof.Machine

/-- `exec` answers a next state for every instruction: the one whose reference part has executed its mnemonic and fields. -/
theorem exec_eq (i : Instr) (s : State) :
    exec i s = .next (s.withRef (refExecute i.mnemonic i.fields.rnumc i.fields.rnumb i.fields.rnuma s.ref)) := by
  cases i <;> simp only [Instr.fields, encode, fieldsOf_encBase, fieldsOf_encSub, fieldsOf_encImm] <;> rfl

/-- If `exec` answers `t`, then `t` is `s` with the reference part executed. -/
theorem exec_next {i : Instr} {s t : State} (h : exec i s = .next t) :
    t = s.withRef (refExecute i.mnemonic i.fields.rnumc i.fields.rnumb i.fields.rnuma s.ref) := by
  rw [exec_eq] at h
  cases h
  rfl

end Sys2Proof.Machine
end

