-- ==== Sys2Proof/WellFormed.lean ====
section
/-! DEFINITION. Which instructions are written by the assembler syntax of R81.

Every `Instr` is legal for the machine: R77 and R78 give every word a meaning, whatever its free fields hold, so `decode`,
`exec` and `step` never ask for this check (assumption 9). It says which terms R81's syntax can write: there the free
fields of `nop`, `unassigned`, `return` and `jump` are zero. -/

namespace Sys2Proof

/-- The free fields hold the zeros of R81's canonical words (`nop` is `0x0000`, `unassigned` `0x0070` or `0x0080`,
`return rA` and `jump rA` have `rnumc=0`). -/
def Instr.wellFormed : Instr → Bool
  | .nop c a => c == 0 && a == 0
  | .unassigned7 c a => c == 0 && a == 0
  | .unassigned8 c a => c == 0 && a == 0
  | .ret c _ => c == 0
  | .jump c _ => c == 0
  | .ldmem _ _ => true
  | .stmem _ _ => true
  | .call _ _ => true
  | .branch _ _ => true
  | .pop _ _ => true
  | .push _ _ => true
  | .not _ _ => true
  | .neg _ _ => true
  | .cnot _ _ => true
  | .popcount _ _ => true
  | .bitrev _ _ => true
  | .add _ _ _ => true
  | .sub _ _ _ => true
  | .mul _ _ _ => true
  | .div _ _ _ => true
  | .xor _ _ _ => true
  | .and _ _ _ => true
  | .or _ _ _ => true
  | .shl _ _ _ => true
  | .shr _ _ _ => true
  | .lt _ _ _ => true
  | .le _ _ _ => true
  | .cmove _ _ _ => true
  | .cadd _ _ _ => true
  | .immlow _ _ => true
  | .immhigh _ _ => true

end Sys2Proof
end

