-- ==== Sys2Proof/Tests/Slice0.lean ====
section
/-! SUPPORT. Small tests, their expected values taken from the spec (`95_test_vectors.md`, the examples of files 40 to 46), and
for every statement with hypotheses a state that meets them. -/

namespace Sys2Proof.Tests

open Sys2Proof.Machine Sys2Proof.Safety

/-! ### Helpers -/

/-- A state whose reference model has these registers, cells and pc, and whose pipeline is at reset. -/
def st (regs : List (RegNum × Word)) (cells : List (Word × Word)) (pc : Word) : State :=
  State.reset.withRef
    { reg := regs.foldl (fun x c => RegFile.write x c.1 c.2) RegFile.zero
      mem := cells.foldl (fun m c => Memory.write m c.1 c.2) []
      pc := pc }

/-- The next state an outcome holds. -/
def next (o : Outcome) : Option State :=
  match o with
  | .next t => some t
  | .fault _ => none
  | .refused _ => none

/-- Register `r`, then cell `a`, then the pc, after an outcome. -/
def regAfter (o : Outcome) (r : RegNum) : Option Word := (next o).map fun t => regOf t r
def cellAfter (o : Outcome) (a : Word) : Option Word := (next o).map fun t => cellOf t a
def pcAfter (o : Outcome) : Option Word := (next o).map fun t => t.ref.pc

/-! ### WellFormed: each check refuses an ill-formed term (R81) -/

theorem test_wellFormed_refuses_nop_c : Instr.wellFormed (.nop 1 0) = false := by decide
theorem test_wellFormed_refuses_nop_a : Instr.wellFormed (.nop 0 15) = false := by decide
theorem test_wellFormed_refuses_unassigned7_c : Instr.wellFormed (.unassigned7 2 0) = false := by decide
theorem test_wellFormed_refuses_unassigned7_a : Instr.wellFormed (.unassigned7 0 2) = false := by decide
theorem test_wellFormed_refuses_unassigned8_c : Instr.wellFormed (.unassigned8 15 0) = false := by decide
theorem test_wellFormed_refuses_unassigned8_a : Instr.wellFormed (.unassigned8 0 15) = false := by decide
theorem test_wellFormed_refuses_ret : Instr.wellFormed (.ret 3 6) = false := by decide
theorem test_wellFormed_refuses_jump : Instr.wellFormed (.jump 1 7) = false := by decide
theorem test_wellFormed_accepts_return : Instr.wellFormed (.ret 0 6) = true := by decide

/-! ### Decoding: every constructor's word, written out from R70 and R72 (most are the spec's own examples) -/

theorem test_decode_nop : decodeWord 0x0F0F = .nop 15 15 := by decide
theorem test_decode_ldmem : decodeWord 0x0211 = .ldmem 2 1 := by decide
theorem test_decode_stmem : decodeWord 0x0324 = .stmem 3 4 := by decide
theorem test_decode_call : decodeWord 0x0536 = .call 5 6 := by decide
theorem test_decode_ret : decodeWord 0x0046 = .ret 0 6 := by decide
theorem test_decode_jump : decodeWord 0x0057 = .jump 0 7 := by decide
theorem test_decode_branch : decodeWord 0x0162 = .branch 1 2 := by decide
theorem test_decode_unassigned7 : decodeWord 0x0070 = .unassigned7 0 0 := by decide
theorem test_decode_unassigned8 : decodeWord 0x0F8F = .unassigned8 15 15 := by decide
theorem test_decode_pop : decodeWord 0x039F = .pop 3 15 := by decide
theorem test_decode_push : decodeWord 0x03AF = .push 3 15 := by decide
theorem test_decode_not : decodeWord 0x01B2 = .not 1 2 := by decide
theorem test_decode_neg : decodeWord 0x01C2 = .neg 1 2 := by decide
theorem test_decode_cnot : decodeWord 0x01D2 = .cnot 1 2 := by decide
theorem test_decode_popcount : decodeWord 0x01E2 = .popcount 1 2 := by decide
theorem test_decode_bitrev : decodeWord 0x01F2 = .bitrev 1 2 := by decide
theorem test_decode_add : decodeWord 0x1210 = .add 2 1 0 := by decide
theorem test_decode_sub : decodeWord 0x2210 = .sub 2 1 0 := by decide
theorem test_decode_mul : decodeWord 0x3210 = .mul 2 1 0 := by decide
theorem test_decode_div : decodeWord 0x4210 = .div 2 1 0 := by decide
theorem test_decode_xor : decodeWord 0x5210 = .xor 2 1 0 := by decide
theorem test_decode_and : decodeWord 0x6210 = .and 2 1 0 := by decide
theorem test_decode_or : decodeWord 0x7210 = .or 2 1 0 := by decide
theorem test_decode_shl : decodeWord 0x8210 = .shl 2 1 0 := by decide
theorem test_decode_shr : decodeWord 0x9210 = .shr 2 1 0 := by decide
theorem test_decode_lt : decodeWord 0xA210 = .lt 2 1 0 := by decide
theorem test_decode_le : decodeWord 0xB210 = .le 2 1 0 := by decide
theorem test_decode_cmove : decodeWord 0xC210 = .cmove 2 1 0 := by decide
theorem test_decode_cadd : decodeWord 0xD210 = .cadd 2 1 0 := by decide
theorem test_decode_immlow : decodeWord 0xE034 = .immlow 0 0x34 := by decide
theorem test_decode_immhigh : decodeWord 0xF112 = .immhigh 1 0x12 := by decide
theorem test_decode_nothing : decode [] = .rejected .noWord := by decide
theorem test_decode_leaves_rest : decode [0x1210, 0xFFFF] = .instr (.add 2 1 0) [0xFFFF] := by decide
theorem test_decodeTableWord : decodeTableWord 16 0x0536 = some (.call 5 6) := by decide
theorem test_encode_add : encode (.add 2 1 0) = 0x1210 := by decide
theorem test_encode_immhigh : encode (.immhigh 15 0xFF) = 0xFFFF := by decide

/-! ### One reference instruction: the vectors T-MEM, T-BIT, T-ALU, T-CND and T-IMM -/

theorem test_nop_wraps_pc_T_MEM_23 :
    pcAfter (exec (.nop 0 0) (st [] [] 0xFFFF)) = some 0 := by decide

theorem test_ldmem_T_MEM_1 :
    regAfter (exec (.ldmem 2 1) (st [(1, 0x10)] [(0x10, 0xBEEF)] 0)) 2 = some 0xBEEF := by decide

theorem test_ldmem_same_register_T_MEM_2 :
    regAfter (exec (.ldmem 1 1) (st [(1, 0x10)] [(0x10, 0xBEEF)] 0)) 1 = some 0xBEEF := by decide

theorem test_stmem_T_MEM_3 :
    cellAfter (exec (.stmem 3 4) (st [(3, 0x100), (4, 0x1234)] [] 0)) 0x100 = some 0x1234 := by decide

theorem test_stmem_same_register_T_MEM_4 :
    cellAfter (exec (.stmem 3 3) (st [(3, 0x100)] [] 0)) 0x100 = some 0x100 := by decide

theorem test_call_links_T_MEM_5 :
    cellAfter (exec (.call 5 6) (st [(5, 0x40), (6, 0x200)] [] 0x10)) 0x200 = some 0x11 := by decide

theorem test_call_jumps_T_MEM_6 :
    pcAfter (exec (.call 5 5) (st [(5, 0x40)] [] 0x10)) = some 0x40 := by decide

theorem test_return_T_MEM_7 :
    pcAfter (exec (.ret 0 6) (st [(6, 0x200)] [(0x200, 0x11)] 0)) = some 0x11 := by decide

theorem test_return_unset_cell_T_MEM_8 :
    pcAfter (exec (.ret 9 6) (st [(6, 0x200)] [] 5)) = some 0 := by decide

theorem test_jump_to_itself_T_MEM_10 :
    pcAfter (exec (.jump 0 7) (st [(7, 0xFFFF)] [] 8)) = some 8 := by decide

theorem test_jump_wraps_T_MEM_11 :
    pcAfter (exec (.jump 0 7) (st [(7, 2)] [] 0xFFFE)) = some 1 := by decide

theorem test_branch_not_taken_T_MEM_13 :
    pcAfter (exec (.branch 1 2) (st [(2, 0xFFF0)] [] 0x20)) = some 0x21 := by decide

theorem test_branch_negative_condition_T_MEM_14 :
    pcAfter (exec (.branch 1 2) (st [(1, 0x8000), (2, 3)] [] 0x20)) = some 0x24 := by decide

theorem test_unassigned7_T_MEM_22 :
    pcAfter (exec (.unassigned7 0 0) (st [] [] 0)) = some 1 := by decide

theorem test_unassigned8_T_MEM_22 :
    pcAfter (exec (.unassigned8 15 15) (st [] [] 0)) = some 1 := by decide

theorem test_pop_same_register_T_MEM_16 :
    regAfter (exec (.pop 15 15) (st [(15, 0x7FFF)] [(0x7FFF, 0x42)] 0)) 15 = some 0x8000 := by decide

theorem test_pop_top_of_memory_T_MEM_17 :
    regAfter (exec (.pop 3 15) (st [(15, 0xFFFF)] [(0xFFFF, 0x99)] 0)) 3 = some 0x99 := by decide

theorem test_push_same_register_T_MEM_19 :
    cellAfter (exec (.push 15 15) (st [(15, 0x8000)] [] 0)) 0x7FFF = some 0x8000 := by decide

theorem test_push_bottom_of_memory_T_MEM_20 :
    cellAfter (exec (.push 3 15) (st [(3, 7)] [] 0)) 0xFFFF = some 7 := by decide

theorem test_not_T_BIT_3 :
    regAfter (exec (.not 1 2) (st [(2, 0x00FF)] [] 0)) 1 = some 0xFF00 := by decide

theorem test_neg_T_BIT_5 :
    regAfter (exec (.neg 1 2) (st [(2, 0x8000)] [] 0)) 1 = some 0x8000 := by decide

theorem test_neg_T_BIT_7 :
    regAfter (exec (.neg 1 2) (st [(2, 5)] [] 0)) 1 = some 0xFFFB := by decide

theorem test_cnot_T_BIT_8 :
    regAfter (exec (.cnot 1 2) (st [(2, 0)] [] 0)) 1 = some 1 := by decide

theorem test_cnot_T_BIT_10 :
    regAfter (exec (.cnot 1 2) (st [(2, 0x8000)] [] 0)) 1 = some 0 := by decide

theorem test_popcount_T_BIT_13 :
    regAfter (exec (.popcount 1 2) (st [(2, 0xFFFF)] [] 0)) 1 = some 0x10 := by decide

theorem test_popcount_T_BIT_14 :
    regAfter (exec (.popcount 1 2) (st [(2, 0x8001)] [] 0)) 1 = some 2 := by decide

theorem test_bitrev_T_BIT_16 :
    regAfter (exec (.bitrev 1 2) (st [(2, 1)] [] 0)) 1 = some 0x8000 := by decide

theorem test_bitrev_T_BIT_19 :
    regAfter (exec (.bitrev 1 2) (st [(2, 0x1234)] [] 0)) 1 = some 0x2C48 := by decide

theorem test_add_T_ALU_2 :
    regAfter (exec (.add 2 1 0) (st [(1, 0x7FFF), (0, 1)] [] 0)) 2 = some 0x8000 := by decide

theorem test_sub_T_ALU_4 :
    regAfter (exec (.sub 2 1 0) (st [(1, 10), (0, 3)] [] 0)) 2 = some 7 := by decide

theorem test_sub_T_ALU_5 :
    regAfter (exec (.sub 2 1 0) (st [(1, 0), (0, 1)] [] 0)) 2 = some 0xFFFF := by decide

theorem test_mul_T_ALU_8 :
    regAfter (exec (.mul 2 1 0) (st [(1, 0x100), (0, 0x100)] [] 0)) 2 = some 0 := by decide

theorem test_mul_T_ALU_10 :
    regAfter (exec (.mul 2 1 0) (st [(1, 0x8000), (0, 0xFFFF)] [] 0)) 2 = some 0x8000 := by decide

theorem test_div_T_ALU_13 :
    regAfter (exec (.div 2 1 0) (st [(1, 0xFFF9), (0, 2)] [] 0)) 2 = some 0xFFFD := by decide

theorem test_div_T_ALU_16 :
    regAfter (exec (.div 2 1 0) (st [(1, 0x8000), (0, 0xFFFF)] [] 0)) 2 = some 0x8000 := by decide

theorem test_xor_T_ALU_20 :
    regAfter (exec (.xor 2 1 0) (st [(1, 0x0F0F), (0, 0x00FF)] [] 0)) 2 = some 0x0FF0 := by decide

theorem test_and_T_ALU_21 :
    regAfter (exec (.and 2 1 0) (st [(1, 0x0F0F), (0, 0x00FF)] [] 0)) 2 = some 0x000F := by decide

theorem test_or_T_ALU_22 :
    regAfter (exec (.or 2 1 0) (st [(1, 0x0F0F), (0, 0x00FF)] [] 0)) 2 = some 0x0FFF := by decide

theorem test_shl_T_ALU_24 :
    regAfter (exec (.shl 2 1 0) (st [(1, 1), (0, 15)] [] 0)) 2 = some 0x8000 := by decide

theorem test_shr_T_ALU_29 :
    regAfter (exec (.shr 2 1 0) (st [(1, 0x8000), (0, 15)] [] 0)) 2 = some 0xFFFF := by decide

theorem test_lt_T_ALU_36 :
    regAfter (exec (.lt 2 1 0) (st [(1, 0x8000), (0, 0x7FFF)] [] 0)) 2 = some 1 := by decide

theorem test_lt_T_ALU_38 :
    regAfter (exec (.lt 2 1 0) (st [(1, 5), (0, 5)] [] 0)) 2 = some 0 := by decide

theorem test_le_T_ALU_39 :
    regAfter (exec (.le 2 1 0) (st [(1, 5), (0, 5)] [] 0)) 2 = some 1 := by decide

theorem test_le_T_ALU_41 :
    regAfter (exec (.le 2 1 0) (st [(1, 0x7FFF), (0, 0x8000)] [] 0)) 2 = some 0 := by decide

theorem test_cmove_T_CND_1 :
    regAfter (exec (.cmove 2 1 0) (st [(1, 1), (0, 0xAA), (2, 0x55)] [] 0)) 2 = some 0xAA := by decide

theorem test_cmove_T_CND_2 :
    regAfter (exec (.cmove 2 1 0) (st [(1, 0), (0, 0xAA), (2, 0x55)] [] 0)) 2 = some 0x55 := by decide

theorem test_cadd_T_CND_6 :
    regAfter (exec (.cadd 2 1 0) (st [(1, 1), (0, 1), (2, 0x7FFF)] [] 0)) 2 = some 0x8000 := by decide

theorem test_cadd_T_CND_4 :
    regAfter (exec (.cadd 2 1 0) (st [(1, 0), (0, 3), (2, 0x10)] [] 0)) 2 = some 0x10 := by decide

theorem test_immlow_T_IMM_2 :
    regAfter (exec (.immlow 0 0) (st [(0, 0xFFFF)] [] 0)) 0 = some 0xFF00 := by decide

theorem test_immlow_T_IMM_3 :
    regAfter (exec (.immlow 0 0xFF) (st [(0, 0x8000)] [] 0)) 0 = some 0x80FF := by decide

theorem test_immhigh_T_IMM_4 :
    regAfter (exec (.immhigh 0 0x12) (st [(0, 0x34)] [] 0)) 0 = some 0x1234 := by decide

theorem test_immhigh_T_IMM_5 :
    regAfter (exec (.immhigh 0 0x80) (st [(0, 0xFFFF)] [] 0)) 0 = some 0x80FF := by decide

/-- T-ALU-19: division by zero is the open parameter. -/
theorem test_div_by_zero_is_open (b : Word) :
    aluDiv b 0 = Config.divZero b := rfl

/-- T-ALU-27: the first amount out of range. -/
theorem test_shl_by_16_is_open (b : Word) : aluShl b 16 = Config.shiftOOR .shl b 16 := rfl

/-- T-ALU-33: a negative amount. -/
theorem test_shr_by_minus_1_is_open (b : Word) : aluShr b 0xFFFF = Config.shiftOOR .shr b 0xFFFF := rfl

/-- The memory stays canonical: storing the unlisted value unlists the cell. -/
theorem test_store_zero_unlists : Memory.write (Memory.write [] 5 7) 5 0 = [] := by decide

theorem test_store_keeps_order : Memory.write (Memory.write [] 9 1) 3 2 = [(3, 2), (9, 1)] := by decide

/-! ### One clock of the pipeline -/

/-- T-SRC-6, cycle 1: the first word is fetched. -/
theorem test_first_cycle_fetches :
    (pipeStep (PipeState.resetWith [(0, 0xF000)])).D.cur = { f := ⟨15, 0, 0, 0⟩, valP := 1 } := by decide

/-- A pipeline state with the given residents in Decode, Execute, Memory and WriteBack. -/
def residents (d e m w : Word) (mRes wRes wMem wC : Word) : PipeState :=
  let p := PipeState.resetWith []
  { p with
    F := { p.F with cur := { pc := 9 } }
    D := { p.D with cur := { f := fieldsOf d, valP := 9 } }
    E := { p.E with cur := { p.E.cur with f := fieldsOf e, data := (fieldsOf e).data, valP := 8 } }
    M := { p.M with cur := { p.M.cur with f := fieldsOf m, aluResult := mRes, valA := 0x77, valC := 0x55, valP := 0x66 } }
    W := { p.W with cur := { f := fieldsOf w, aluResult := wRes, memValue := wMem, valC := wC } } }

/-- T-SRC-5: call selects valC, return memValue, jump and branch aluResult, any other F.pc. -/
theorem test_sel_call : (residents 0 0 0 0x0536 0 1 2 0x40).sel = 0x40 := by decide
theorem test_sel_return : (residents 0 0 0 0x0046 0 1 0x11 3).sel = 0x11 := by decide
theorem test_sel_jump : (residents 0 0 0 0x0057 0 0xD 2 3).sel = 0xD := by decide
theorem test_sel_branch : (residents 0 0 0 0x0162 0 0x11 2 3).sel = 0x11 := by decide
theorem test_sel_add : (residents 0 0 0 0x1210 0 1 2 3).sel = 9 := by decide

/-- T-CT-5, cycle 8: a bubble and a redirect in the same cycle keep the redirect. -/
theorem test_bubble_keeps_redirect :
    (pipeStep (residents 0x0070 0 0 0x0057 0 9 0 0)).F.cur.pc = 9 ∧
      (pipeStep (residents 0x0070 0 0 0x0057 0 9 0 0)).D.cur = { f := ⟨0, 0, 0, 0⟩, valP := 9 } := by decide

/-- V1, d=1: the bypass gives `add r2, r1, r0` the producer's result as valB. -/
theorem test_bypass_valB : (pipeStep (residents 0 0x1210 0xE105 0 5 0 0 0)).M.cur.aluResult = 5 := by decide

/-- V4, d=1: a load is not bypassed. -/
theorem test_no_bypass_from_load : (pipeStep (residents 0 0x1210 0x0113 0 5 0 0 0)).M.cur.aluResult = 0 := by decide

/-- T-CTL-2: `pop` commits both values. -/
theorem test_pop_commits_both :
    RegFile.read (pipeStep (residents 0 0 0 0x039F 0 0x8000 0x42 0)).reg 3 = 0x42 ∧
      RegFile.read (pipeStep (residents 0 0 0 0x039F 0 0x8000 0x42 0)).reg 15 = 0x8000 := by decide

/-- T-HZ-1, T-HZ-4, T-HZ-5, T-HZ-6, T-HZ-8 and T-HZ-9. -/
theorem test_hazard_vectors :
    hazardDetect (fieldsOf 0x1100) (fieldsOf 0x1210) = true ∧ hazardDetect (fieldsOf 0x1100) (fieldsOf 0x0021) = false ∧
      hazardDetect (fieldsOf 0xF000) (fieldsOf 0xE003) = true ∧ hazardDetect (fieldsOf 0x03AF) (fieldsOf 0x049F) = true ∧
      hazardDetect (fieldsOf 0x0112) (fieldsOf 0x1210) = false ∧
      hazardDetect (fieldsOf 0x1100) (fieldsOf 0xC123) = false := by decide

/-! ### The harness (T-H) -/

/-- T-H-1: trunc16, blank lines, the last line wins. -/
theorem test_image_T_H_1 :
    (loadImage ['0', ' ', '-', '1', '\n', '1', ' ', '6', '5', '5', '3', '5', '\n', '\n', '2', ' ', '4', '\n',
      '2', '\t', '7']).toOption = some [(0, 0xFFFF), (1, 0xFFFF), (2, 7)] := by decide

/-- T-H-2 and T-H-4: the first address out of range, and lines that are not two integers. -/
theorem test_image_bad_lines :
    (loadImage ['6', '5', '5', '3', '6', ' ', '0']).toOption = none ∧ (loadImage ['0', ' ', 'x']).toOption = none ∧
      (loadImage ['0', ' ', '1', ' ', '2']).toOption = none := by decide

/-- T-H-5 to T-H-8. -/
theorem test_harness_errors :
    harness ⟨none, [['1'], ['2']]⟩ = .fatal .io ∧ harness ⟨some [], [['-', '1'], ['5']]⟩ = .fatal .range ∧
      harness ⟨some [], [['a'], ['5']]⟩ = .fatal .parse ∧ harness ⟨some [], [['5']]⟩ = .fatal .usage := by decide

/-- T-H-11: no steps, no cycles. -/
theorem test_harness_nothing_to_run : harness ⟨some [], [['0'], ['0']]⟩ = .completed .equal := by decide

/-- T-H-9: both pc and a register differ, and the pc is reported. -/
theorem test_check_reports_pc_first :
    check { RefState.resetWith [] with pc := 5, reg := RegFile.write RegFile.zero 0 1 } (PipeState.resetWith []) =
      .pcMismatch 5 0 := by decide

/-! ### Witnesses: each statement's hypotheses are met by a concrete state -/

/-- `add r2, r1, r0` at word 0, operands 4 and 3. -/
def addState : State := st [(1, 4), (0, 3)] [(0, 0x1210)] 0

theorem witness_StepRunsDecodedInstruction :
    decode (Memory.read addState.ref.mem addState.ref.pc :: []) = .instr (.add 2 1 0) [] ∧
      ∃ t, exec (.add 2 1 0) addState = .next t :=
  ⟨by decide, _, rfl⟩

theorem witness_StepKeepsInvariant : Inv addState ∧ ∃ t, step addState = .next t :=
  ⟨⟨by decide, by decide, by decide, fun _ => rfl⟩, _, rfl⟩

/-- An image that lists the lowest and the highest cell. -/
theorem witness_ResetMeetsInvariant : Memory.wf [(0, 0x1210), (65535, 1)] := by decide

theorem witness_EveryWordMatchesOneTableRow : (⟨.add, 0xF000, 0x1000⟩ : OpcodeRow).holds 0x1210 = true := by decide

theorem witness_HarnessErrorsBeforeAnyRun :
    fatalErrors ⟨none, [['1'], ['2']]⟩ ≠ [] ∧ fatalErrors ⟨some [], [['0'], ['2']]⟩ = [] := by decide

/-- The same reference part, another pipeline. -/
def addState' : State := addState.withPipe (residents 0x1210 0 0 0 0 0 0 0)

theorem witness_ModelsShareNothing_ref :
    (∃ t, step addState = .next t) ∧ (∃ t, step addState' = .next t) ∧ addState.ref = addState'.ref ∧
      addState.pipe ≠ addState'.pipe :=
  ⟨⟨_, rfl⟩, ⟨_, rfl⟩, rfl, by decide⟩

theorem witness_ModelsShareNothing_pipe :
    (∃ t, step addState = .next t) ∧ (∃ t, step State.reset = .next t) ∧ addState.pipe = State.reset.pipe ∧
      addState.ref ≠ State.reset.ref :=
  ⟨⟨_, rfl⟩, ⟨_, rfl⟩, rfl, by decide⟩

theorem witness_PushThenPopRestores : (3 : RegNum) ≠ 15 := by decide

theorem witness_OnlyWriteBackWritesRegisters :
    ∃ t, exec (.add 2 1 0) addState = .next t ∧ regOf t 2 ≠ regOf addState 2 :=
  ⟨_, rfl, by decide⟩

/-- Registers and link cell of T-MEM-5. -/
def callState : State := st [(5, 0x40), (6, 0x200)] [] 0x10

theorem witness_OnlyThreeInstructionsWriteMemory_stmem :
    ∃ t, exec (.stmem 5 6) callState = .next t ∧ cellOf t 0x40 ≠ cellOf callState 0x40 :=
  ⟨_, rfl, by decide⟩

theorem witness_OnlyThreeInstructionsWriteMemory_call :
    ∃ t, exec (.call 5 6) callState = .next t ∧ cellOf t 0x200 ≠ cellOf callState 0x200 :=
  ⟨_, rfl, by decide⟩

/-- The cell below the lowest address is the highest. -/
theorem witness_OnlyThreeInstructionsWriteMemory_push :
    ∃ t, exec (.push 5 0) callState = .next t ∧ cellOf t 0xFFFF ≠ cellOf callState 0xFFFF :=
  ⟨_, rfl, by decide⟩

theorem witness_OnlyTransfersLeaveSequence_call :
    ∃ t, exec (.call 5 6) callState = .next t ∧ t.ref.pc ≠ succPc callState :=
  ⟨_, rfl, by decide⟩

theorem witness_OnlyTransfersLeaveSequence_ret :
    ∃ t, exec (.ret 0 6) callState = .next t ∧ t.ref.pc ≠ succPc callState :=
  ⟨_, rfl, by decide⟩

theorem witness_OnlyTransfersLeaveSequence_jump :
    ∃ t, exec (.jump 0 5) callState = .next t ∧ t.ref.pc ≠ succPc callState :=
  ⟨_, rfl, by decide⟩

theorem witness_OnlyTransfersLeaveSequence_branch :
    ∃ t, exec (.branch 6 5) callState = .next t ∧ t.ref.pc ≠ succPc callState :=
  ⟨_, rfl, by decide⟩

theorem witness_SourceSelectorsFollowTheTable : hazardDetect (fieldsOf 0x1100) (fieldsOf 0x1210) = true := by decide

/-- `immlow` uses only valC: valA and valB may differ. -/
theorem witness_AluDependsOnUsedOperandsOnly :
    (usesA .immlow = true → (1 : Word) = 2) ∧ (usesB .immlow = true → (3 : Word) = 4) ∧
      (usesC .immlow = true → (5 : Word) = 5) := by decide

/-- T-HZ-5, one cycle later: `immhigh r0, 0` in Memory, `immlow r0, 3` in Execute. The high
nibble of the immediate is taken for a register number, and valB is replaced and not used. -/
theorem witness_FalsePositiveBypassChangesNothing :
    let p := residents 0 0xE003 0xF000 0 5 0 0 0
    p.fwd = true ∧ p.opB ≠ p.E.cur.valB ∧ usesB p.E.cur.f.mnem = false := by decide

/-- The other field: `immlow r1, 0x30` in Execute names r0 in `rnuma`. -/
theorem witness_FalsePositiveBypassChangesNothing_valA :
    let p := residents 0 0xE130 0xF000 0 5 0 0 0
    p.fwd = true ∧ p.opA ≠ p.E.cur.valA ∧ usesA p.E.cur.f.mnem = false := by decide

/-- `push r3, r15` in Memory: the store's address and data. -/
theorem witness_ControlTableIsTheSignals :
    let p := residents 0x0070 0 0x03AF 0x039F 0x7FFF 0x8000 0x42 0
    (0x7FFF : Word) = (if p.control.addressSource = .valA then p.M.cur.valA else p.M.cur.aluResult) ∧
      (0x55 : Word) = (if p.control.memoryWriteDataSource = .valC then p.M.cur.valC
        else if p.control.memoryWriteDataSource = .valP then p.M.cur.valP else p.M.cur.valA) ∧
      p.control.bubbleInsert = true ∧ p.control.destRegisterIndex = 15 := by decide

/-- `call`, `return`, `branch` and `add` in WriteBack: one for each clause. -/
theorem witness_WriteBackCommitsInOrder :
    pcSource (residents 0 0 0 0x0536 0 1 2 0x40).W.cur.f.mnem = .valC ∧
      pcSource (residents 0 0 0 0x0046 0 1 2 3).W.cur.f.mnem = .memValue ∧
      pcSource (residents 0 0 0 0x0162 0 1 2 3).W.cur.f.mnem = .aluResult ∧
      pcSource (residents 0 0 0 0x1210 0 1 2 3).W.cur.f.mnem = .sequential := by decide

/-- A covered pair: `immlow r1, 5` in Memory, `add r2, r1, r0` in Execute. -/
theorem witness_ExecuteBypassesFromMemoryStage :
    let p := residents 0 0x1210 0xE105 0 5 0 0 0
    (0 : Word) = (if aluWriteBackEnable p.M.cur.f.mnem = true ∧ aluWriteBackEnable p.E.cur.f.mnem = true ∧
        p.E.cur.f.rnuma = destOfFields p.M.cur.f then p.M.cur.aluResult else p.E.cur.valA) ∧
      (5 : Word) = (if aluWriteBackEnable p.M.cur.f.mnem = true ∧ aluWriteBackEnable p.E.cur.f.mnem = true ∧
        p.E.cur.f.rnumb = destOfFields p.M.cur.f then p.M.cur.aluResult else p.E.cur.valB) := by decide

/-- `pop r3, r15` in WriteBack: both of its writes show. -/
theorem witness_DecodeReadsSameCyclesCommit :
    let p := residents 0x1210 0 0 0x039F 0 0x8000 0x42 0
    ∀ r, (fun r => if r = 15 then (0x8000 : Word) else if r = 3 then 0x42 else 0) r =
      if aluWriteBackEnable p.W.cur.f.mnem = true ∧ r = destOfFields p.W.cur.f then p.W.cur.aluResult
      else if memoryWriteBackEnable p.W.cur.f.mnem = true ∧ r = p.W.cur.f.rnumc then p.W.cur.memValue
      else RegFile.read p.reg r := by decide

theorem witness_FetchReadsAtSelectedPc : (residents 0x1210 0 0 0x0536 0 1 2 0x40).D.cur.f.mnem ≠ .unassigned := by
  decide

theorem witness_UnassignedMakesOneBubble :
    (residents 0x0F8F 0 0x1210 0x0057 0 9 0 0).D.cur.f.mnem = .unassigned ∧
      isTransfer (residents 0x0F8F 0 0x1210 0x0057 0 9 0 0).M.cur.f.mnem = false := by decide

theorem witness_NoStallFreezeOrSquash :
    isTransfer (residents 0x1210 0 0 0x1210 0 0 0 0).W.cur.f.mnem = false ∧
      (residents 0x1210 0 0 0x1210 0 0 0 0).D.cur.f.mnem ≠ .unassigned ∧
      (residents 0x0070 0 0 0 0 0 0 0).D.cur.f.mnem = .unassigned := by decide

/-- Two states that differ in a next half only. -/
theorem witness_ClockReadsOnlyCurrentHalves :
    let p := residents 0x1210 0 0 0 0 0 0 0
    let q := p.nextF { pc := 77 }
    p.reg = q.reg ∧ p.mem = q.mem ∧ p.F.cur = q.F.cur ∧ p.D.cur = q.D.cur ∧ p.E.cur = q.E.cur ∧ p.M.cur = q.M.cur ∧
      p.W.cur = q.W.cur ∧ p ≠ q := by decide

theorem witness_FetchSeesSameCyclesStore_stmem :
    let p := residents 0 0 0x0122 0 9 0 0 0
    p.M.cur.f.mnem = .stmem ∧ p.M.cur.aluResult = p.sel ∧ p.D.cur.f.mnem ≠ .unassigned := by decide

theorem witness_FetchSeesSameCyclesStore_call :
    let p := residents 0 0 0x0536 0 9 0 0 0
    p.M.cur.f.mnem = .call ∧ p.M.cur.aluResult = p.sel ∧ p.D.cur.f.mnem ≠ .unassigned := by decide

theorem witness_FetchSeesSameCyclesStore_push :
    let p := residents 0 0 0x03AF 0 9 0 0 0
    p.M.cur.f.mnem = .push ∧ p.M.cur.aluResult = p.sel ∧ p.D.cur.f.mnem ≠ .unassigned := by decide

/-- `immlow r1, 5` at word 0, `nop`s after it. -/
def paddedImage : Memory := [(0, 0xE105)]

theorem padded_paddedImage : Padded (RefState.resetWith paddedImage) := by
  have h : (refStep (RefState.resetWith paddedImage)).mem = paddedImage := by decide +kernel
  intro k hk
  rw [h]
  fin_cases hk <;> decide +kernel

theorem witness_IsolatedInstructionAgrees :
    Aligned (RefState.resetWith paddedImage) (pipeStep (PipeState.resetWith paddedImage)) ∧
      Padded (RefState.resetWith paddedImage) :=
  ⟨by unfold Aligned; decide +kernel, padded_paddedImage⟩

theorem witness_PaddedRunAgrees : ∀ j < 1, Padded (refBlock^[j] (RefState.resetWith paddedImage)) := by
  intro j hj
  obtain rfl : j = 0 := by omega
  exact padded_paddedImage

theorem slotRun_succ (image : Memory) (k : Nat) : slotRun image (k + 1) = slotStep (slotRun image k) :=
  Function.iterate_succ_apply' slotStep k (SlotState.start image)

/-- The slot state that holds the given registers and slot, before the fetch of `seq`. -/
def slotAt (image : Memory) (regs : List (RegNum × Word)) (pc : Word) (slot : Slot) (seq : Word)
    (steps transfers unassigneds : Nat) : SlotState :=
  { ref := { reg := regs.foldl (fun x c => RegFile.write x c.1 c.2) RegFile.zero, mem := image, pc := pc }
    slot := slot, seq := seq, steps := steps, transfers := transfers, unassigneds := unassigneds }

theorem slotRun_zero (image : Memory) : slotRun image 0 = slotAt image [] 0 .instr 0 0 0 0 := by
  simp only [slotRun, Function.iterate_zero, id_eq, SlotState.start, slotAt, RefState.resetWith, List.foldl_nil]

/-- `immlow r1, 5`, then `add r2, r1, r1` on the bypassed value, then `nop`s. -/
def bypassImage : Memory := [(0, 0xE105), (1, 0x1211)]

theorem slotRun_bypass_1 : slotRun bypassImage 1 = slotAt bypassImage [(1, 5)] 1 .instr 1 1 0 0 := by
  rw [slotRun_succ, slotRun_zero]; decide +kernel
theorem slotRun_bypass_2 : slotRun bypassImage 2 = slotAt bypassImage [(1, 5), (2, 10)] 2 .instr 2 2 0 0 := by
  rw [slotRun_succ, slotRun_bypass_1]; decide +kernel
theorem slotRun_bypass_3 : slotRun bypassImage 3 = slotAt bypassImage [(1, 5), (2, 10)] 3 .instr 3 3 0 0 := by
  rw [slotRun_succ, slotRun_bypass_2]; decide +kernel
theorem slotRun_bypass_4 : slotRun bypassImage 4 = slotAt bypassImage [(1, 5), (2, 10)] 4 .instr 4 4 0 0 := by
  rw [slotRun_succ, slotRun_bypass_3]; decide +kernel
theorem slotRun_bypass_5 : slotRun bypassImage 5 = slotAt bypassImage [(1, 5), (2, 10)] 5 .instr 5 5 0 0 := by
  rw [slotRun_succ, slotRun_bypass_4]; decide +kernel

theorem witness_HazardFreeRunAgrees : HazardFree bypassImage 6 := by
  intro k hk
  interval_cases k <;>
    simp only [slotFieldsBefore, slotFields, fetchOk, fetchedFields, Nat.reduceSub, Nat.reduceLeDiff, if_true, if_false,
      slotRun_zero, slotRun_bypass_1, slotRun_bypass_2, slotRun_bypass_3, slotRun_bypass_4, slotRun_bypass_5] <;>
    decide +kernel

theorem witness_HazardFreeCheckIsEqual : HazardFree bypassImage 6 ∧ Quiet bypassImage 6 := by
  refine ⟨witness_HazardFreeRunAgrees, fun k hk => ?_⟩
  interval_cases k <;>
    simp only [slotFields, slotRun_zero, slotRun_bypass_1, slotRun_bypass_2, slotRun_bypass_3, slotRun_bypass_4, slotRun_bypass_5] <;>
    decide +kernel

/-- Sub-op 7 with its bubble, then `jump` through a zero offset with its three shadow slots. -/
def transferImage : Memory := [(0, 0x0070), (1, 0x0057)]

theorem slotRun_transfer_1 : slotRun transferImage 1 = slotAt transferImage [] 1 .bubble 1 1 0 1 := by
  rw [slotRun_succ, slotRun_zero]; decide +kernel
theorem slotRun_transfer_2 : slotRun transferImage 2 = slotAt transferImage [] 1 .instr 1 1 0 1 := by
  rw [slotRun_succ, slotRun_transfer_1]; decide +kernel
theorem slotRun_transfer_3 : slotRun transferImage 3 = slotAt transferImage [] 2 (.shadow 2) 2 2 1 1 := by
  rw [slotRun_succ, slotRun_transfer_2]; decide +kernel
theorem slotRun_transfer_4 : slotRun transferImage 4 = slotAt transferImage [] 2 (.shadow 1) 3 2 1 1 := by
  rw [slotRun_succ, slotRun_transfer_3]; decide +kernel
theorem slotRun_transfer_5 : slotRun transferImage 5 = slotAt transferImage [] 2 (.shadow 0) 4 2 1 1 := by
  rw [slotRun_succ, slotRun_transfer_4]; decide +kernel

theorem witness_HazardFreeRunAgrees_transfer : HazardFree transferImage 6 := by
  intro k hk
  interval_cases k <;>
    simp only [slotFieldsBefore, slotFields, fetchOk, fetchedFields, Nat.reduceSub, Nat.reduceLeDiff, if_true, if_false,
      slotRun_zero, slotRun_transfer_1, slotRun_transfer_2, slotRun_transfer_3, slotRun_transfer_4, slotRun_transfer_5] <;>
    decide +kernel

theorem witness_CheckReportsFirstMismatch_equal : check (RefState.resetWith []) (PipeState.resetWith []) = .equal := by
  decide

/-- The highest register. -/
theorem witness_CheckReportsFirstMismatch_reg :
    check { RefState.resetWith [] with reg := RegFile.write RegFile.zero 15 1 } (PipeState.resetWith []) =
      .regMismatch 15 1 0 := by decide

/-- The highest cell. -/
theorem witness_CheckReportsFirstMismatch_mem :
    check (RefState.resetWith [(65535, 1)]) (PipeState.resetWith []) = .memMismatch 65535 1 0 := by decide

/-- A tab between the words, and a signed value. -/
theorem witness_ImageLoads_line :
    lineTokens ['0', '\t', '-', '1'] = [['0'], ['-', '1']] ∧ decimalNat ['0'] = some 0 ∧
      decimalInt ['-', '1'] = some (-1) := by decide

/-- A pair line at the ends of both ranges, and a blank line. -/
theorem witness_ImageLoads_good :
    ([['6', '5', '5', '3', '5', ' ', '-', '3', '2', '7', '6', '8'], []].map parseImageLine).map Except.toOption =
      [some (some (65535, -32768)), some none] := by decide

theorem witness_ImageLoads_bad : (parseImageLine ['0', ' ', '6', '5', '5', '3', '6']).toOption = none := by decide

theorem witness_HarnessErrors_none : fatalErrors ⟨some [], [['1'], ['2']]⟩ = [] := by decide

theorem witness_HarnessErrors_several : fatalErrors ⟨none, [['x'], ['-', '2']]⟩ = [.parse, .range, .io] := by decide

end Sys2Proof.Tests
end

section
/-! Fields as numbers (R70, R71): each extracted field is a base-16 digit of the word's value, and `data` is its low
byte. -/

namespace Sys2Proof

@[simp] theorem fieldsOf_fn_toNat (w : Word) : (fieldsOf w).fn.toNat = w.toNat / 4096 := by
  have top : w.toNat / 4096 < 16 := by have := w.isLt; omega
  calc (fieldsOf w).fn.toNat
      _ = w.toNat / 4096 % 16 := by simp [fieldsOf, Nat.shiftRight_eq_div_pow]
      _ = w.toNat / 4096 := Nat.mod_eq_of_lt top

@[simp] theorem fieldsOf_rnumc_toNat (w : Word) : (fieldsOf w).rnumc.toNat = w.toNat / 256 % 16 := by
  simp [fieldsOf, Nat.shiftRight_eq_div_pow]

@[simp] theorem fieldsOf_rnumb_toNat (w : Word) : (fieldsOf w).rnumb.toNat = w.toNat / 16 % 16 := by
  simp [fieldsOf, Nat.shiftRight_eq_div_pow]

@[simp] theorem fieldsOf_rnuma_toNat (w : Word) : (fieldsOf w).rnuma.toNat = w.toNat % 16 := by
  simp [fieldsOf]

/-- `data = {rnumb, rnuma}` as a number (R76). -/
theorem Fields.data_toNat (f : Fields) : f.data.toNat = f.rnumb.toNat * 16 + f.rnuma.toNat := by
  calc f.data.toNat
      _ = f.rnumb.toNat <<< 4 ||| f.rnuma.toNat := BitVec.toNat_append f.rnumb f.rnuma
      _ = f.rnumb.toNat <<< 4 + f.rnuma.toNat := (Nat.shiftLeft_add_eq_or_of_lt f.rnuma.isLt _).symm
      _ = f.rnumb.toNat * 16 + f.rnuma.toNat := by rw [Nat.shiftLeft_eq]

/-- The two low digits together are the low byte (R71, R76). -/
@[simp] theorem fieldsOf_data_toNat (w : Word) : (fieldsOf w).data.toNat = w.toNat % 256 := by
  rw [Fields.data_toNat, fieldsOf_rnumb_toNat, fieldsOf_rnuma_toNat]
  omega

/-- Decode is total, and takes exactly one cell (R71, R79). -/
@[simp] theorem decode_cons (w : Word) (rest : List Word) : decode (w :: rest) = .instr (decodeWord w) rest := rfl

/-- Settles O5: the digits of the word, field by field, then totality of decode. -/
theorem fieldsSitAtFixedBits : Obligations.FieldsSitAtFixedBits := fun w =>
  ⟨fieldsOf_fn_toNat w, fieldsOf_rnumc_toNat w, fieldsOf_rnumb_toNat w, fieldsOf_rnuma_toNat w, fieldsOf_data_toNat w,
    decode_cons w⟩

end Sys2Proof
end

section
/-! The selector signals of the control unit (R124 to R126), each a function of the mnemonic given by its exceptional
rows, and the destination index the detector shares with the write-back (R200). -/

namespace Sys2Proof.Machine

/-- R124: `return` and `pop` address memory by `valA`. -/
theorem addressSource_eq (m : Mnemonic) : addressSource m = if m = .ret ∨ m = .pop then .valA else .aluResult := by
  cases m <;> rfl

/-- R125: `push` stores `valC` and `call` stores `valP`. -/
theorem memoryWriteDataSource_eq (m : Mnemonic) :
    memoryWriteDataSource m = if m = .push then .valC else if m = .call then .valP else .valA := by
  cases m <;> rfl

/-- R126: the four instructions that name their destination in `rnuma`. -/
theorem destRegisterIndex_eq (m : Mnemonic) :
    destRegisterIndex m = if m ∈ [.call, .ret, .pop, .push] then .rnuma else .rnumc := by
  cases m <;> rfl

/-- `dest(f)` of R126, as a register number. -/
theorem destOfFields_eq (f : Fields) :
    destOfFields f = if f.mnem ∈ [.call, .ret, .pop, .push] then f.rnuma else f.rnumc := by
  rw [destOfFields, destOf, destRegisterIndex_eq]
  by_cases inRnuma : f.mnem ∈ [.call, .ret, .pop, .push]
  · rw [if_pos inRnuma, if_pos inRnuma]
  · rw [if_neg inRnuma, if_neg inRnuma]

/-- R201: the detector compares the consumer's source fields with the producer's `dest(f)`. -/
theorem hazardDetect_eq (p q : Fields) :
    hazardDetect p q =
      (aluWriteBackEnable p.mnem && aluWriteBackEnable q.mnem &&
        (q.rnuma == destOfFields p || q.rnumb == destOfFields p)) := rfl

/-- Settles O39: the exceptional rows of each selector, then the detector's use of the same destination. -/
theorem sourceSelectorsFollowTheTable : Obligations.SourceSelectorsFollowTheTable :=
  ⟨fun m => ⟨addressSource_eq m, memoryWriteDataSource_eq m⟩, destOfFields_eq, hazardDetect_eq⟩

end Sys2Proof.Machine
end

section
/-! The instructions whose row of the control table is `aluRow` (R130): they execute by writing their ALU result to
`rnumc`, and do nothing else (R129, R131, R132). -/

namespace Sys2Proof.Machine

open Sys2Proof.Safety

/-- R130's row of a mnemonic holds its eight signals. -/
theorem controlTable_some (m : Mnemonic) :
    controlTable (some m) =
      ⟨pcSource m, bubbleInsert m, memoryAccessKind m, addressSource m, memoryWriteDataSource m, destRegisterIndex m,
        memoryWriteBackEnable m, aluWriteBackEnable m⟩ := by
  cases m <;> rfl

/-- An `aluRow` mnemonic writes its ALU result to `rnumc`, accesses no memory and goes on at the sequential pc. -/
theorem refExecute_of_aluRow {m : Mnemonic} (row : controlTable (some m) = aluRow) (rnumc rnumb rnuma : RegNum)
    (r : RefState) :
    refExecute m rnumc rnumb rnuma r =
      { reg := RegFile.write r.reg rnumc
          (alu m (RegFile.read r.reg rnuma) (RegFile.read r.reg rnumb) (RegFile.read r.reg rnumc) (rnumb ++ rnuma)
            (r.pc + 1))
        mem := r.mem
        pc := r.pc + 1 } := by
  rw [controlTable_some, aluRow, ControlRow.mk.injEq] at row
  obtain ⟨sequential, -, noAccess, -, -, destRnumc, noMemoryWriteBack, aluWriteBack⟩ := row
  simp [refExecute, fetchOperands, memAccess, commitWB, pcSelect, destOf, sequential, noAccess, destRnumc,
    noMemoryWriteBack, aluWriteBack]

/-- An `aluRow` instruction completes, and its only effect is its ALU result in register `rnumc`. -/
theorem writesOnly_of_aluRow {i : Instr} (row : controlTable (some i.mnemonic) = aluRow) :
    WritesOnly i i.fields.rnumc fun s =>
      alu i.mnemonic (regOf s i.fields.rnuma) (regOf s i.fields.rnumb) (regOf s i.fields.rnumc) i.fields.data
        (succPc s) := by
  intro s
  refine ⟨_, exec_eq i s, ?_⟩
  rw [refExecute_of_aluRow row]
  exact ⟨rfl, fun r => RegFile.read_write _ _ r _, fun _ => rfl, rfl⟩

end Sys2Proof.Machine
end

section
/-! The instruction `add` (R171): its fields, its opcode and its sum. -/

namespace Sys2Proof.Machine

open Sys2Proof.Safety

theorem add_fields (rC rB rA : RegNum) : (Instr.add rC rB rA).fields = ⟨1, rC, rB, rA⟩ := fieldsOf_encBase 1 rC rB rA

/-- `fn=1` is `add` for every register (R72). -/
theorem decodeWord_encBase_add (rC rB rA : RegNum) : decodeWord (encBase 1 rC rB rA) = .add rC rB rA := by
  rw [decodeWord, fieldsOf_encBase]
  rfl

/-- R171: the sum of the operands as unsigned numbers, modulo 2^16. -/
theorem aluAdd_eq_ofNat (B A : Word) : aluAdd B A = BitVec.ofNat 16 ((u16 B + u16 A) % 2 ^ 16) := by
  apply BitVec.eq_of_toNat_eq
  rw [aluAdd, BitVec.toNat_add, BitVec.toNat_ofNat, Nat.mod_mod]

theorem writesOnly_add (rC rB rA : RegNum) :
    WritesOnly (.add rC rB rA) rC fun s => aluAdd (regOf s rB) (regOf s rA) := by
  have effect := writesOnly_of_aluRow (i := .add rC rB rA) rfl
  rw [add_fields] at effect
  exact effect

/-- Settles O27: the opcode of `add`, and its ALU result as a sum modulo 2^16. -/
theorem addWraps : Obligations.AddWraps := by
  refine ⟨decodeWord_encBase_add 2 1 0, fun rC rB rA => ⟨decodeWord_encBase_add rC rB rA, ?_⟩⟩
  simp only [← aluAdd_eq_ofNat]
  exact writesOnly_add rC rB rA

end Sys2Proof.Machine
end

section
/-! Decoding and encoding are inverse (R70 to R80). The fields of a word determine it, and both directions go through
them: an instruction's word has the instruction's fields, and a word's instruction has the word's fields. -/

namespace Sys2Proof

/-- A statement about every nibble is sixteen statements. -/
theorem Nibble.forall_of_lt {P : Nibble → Prop} (h : ∀ n < 16, P (BitVec.ofNat 4 n)) (v : Nibble) : P v := by
  have value : BitVec.ofNat 4 v.toNat = v := BitVec.ofNat_toNat 4 v |>.trans (BitVec.setWidth_eq v)
  exact value ▸ h v.toNat v.isLt

/-- The fields determine the word (R70). -/
theorem fieldsOf_injective : Function.Injective fieldsOf := by
  intro v w same
  rw [← encBase_fieldsOf v, same, encBase_fieldsOf]

/-- Decoding gives back the encoded instruction, constructor by constructor (R80). -/
theorem decodeWord_encode (i : Instr) : decodeWord (encode i) = i := by
  cases i with
  | immlow c imm => rw [encode, decodeWord, fieldsOf_encImm]; exact congrArg (Instr.immlow c) (Byte.hi_append_lo imm)
  | immhigh c imm => rw [encode, decodeWord, fieldsOf_encImm]; exact congrArg (Instr.immhigh c) (Byte.hi_append_lo imm)
  | _ => simp only [encode, decodeWord, fieldsOf_encBase, fieldsOf_encSub]; rfl

theorem fields_encImm_data (fn c b a : Nibble) : fieldsOf (encImm fn c (b ++ a)) = ⟨fn, c, b, a⟩ := by
  rw [fieldsOf_encImm, Byte.hi_append, Byte.lo_append]

/-- The instruction of a word has the word's fields: under `fn=0` one case per sub-op, else one per base opcode (R72,
R77). -/
theorem fields_decodeWord_encBase (fn c b a : Nibble) : (decodeWord (encBase fn c b a)).fields = ⟨fn, c, b, a⟩ := by
  rw [decodeWord, fieldsOf_encBase]
  revert fn
  refine Nibble.forall_of_lt fun fn hfn => ?_
  rcases Nat.lt_or_ge fn 14 with base | immediate
  · rcases Nat.eq_zero_or_pos fn with rfl | positive
    · revert b
      refine Nibble.forall_of_lt fun sub hsub => ?_
      interval_cases sub <;> exact fieldsOf_encSub _ c a
    · interval_cases fn <;> exact fieldsOf_encBase _ c b a
  · interval_cases fn <;> exact fields_encImm_data _ c b a

theorem decodeWord_fields (w : Word) : (decodeWord w).fields = fieldsOf w := by
  have effect := fields_decodeWord_encBase (fieldsOf w).fn (fieldsOf w).rnumc (fieldsOf w).rnumb (fieldsOf w).rnuma
  rwa [encBase_fieldsOf] at effect

theorem encode_decodeWord (w : Word) : encode (decodeWord w) = w := fieldsOf_injective (decodeWord_fields w)

/-- Settles O1: an instruction is one cell, and that cell decodes to it. -/
theorem decodeInvertsEncode : Obligations.DecodeInvertsEncode := by
  intro i rest
  rw [encodeWords, List.singleton_append, decode_cons, decodeWord_encode]

/-- Settles O2: a word and the encoding of its instruction have the same fields. -/
theorem encodeInvertsDecode : Obligations.EncodeInvertsDecode := encode_decodeWord

/-! ### The mnemonic of the fields (R72, R73) -/

/-- The opcode map answers an instruction's own mnemonic for its fields. -/
theorem mnemLookup_fields (i : Instr) : mnemLookup i.fields.fn i.fields.rnumb = some i.mnemonic := by
  cases i <;> simp only [Instr.fields, encode, fieldsOf_encBase, fieldsOf_encSub, fieldsOf_encImm] <;> rfl

theorem Fields.mnem_of_lookup {f : Fields} {m : Mnemonic} (found : mnemLookup f.fn f.rnumb = some m) : f.mnem = m := by
  rw [Fields.mnem, Sys2Proof.mnem, found, Option.getD_some]

@[simp] theorem mnem_fields (i : Instr) : i.fields.mnem = i.mnemonic := Fields.mnem_of_lookup (mnemLookup_fields i)

/-- Settles O3: a word's instruction has the word's fields, and the opcode map answers its mnemonic for them. -/
theorem decodedMnemonicFollowsFields : Obligations.DecodedMnemonicFollowsFields := by
  intro w
  have sameFields := decodeWord_fields w
  have found := mnemLookup_fields (decodeWord w)
  rw [sameFields] at found
  exact ⟨found, Fields.mnem_of_lookup found, sameFields⟩

/-! ### The opcode table (R74) -/

/-- Every instruction's word is in the row of the table with its mnemonic. -/
theorem tableRow_statement (i : Instr) : Laws.TableRow.Statement i := by
  cases i with
  | nop c a => exact Laws.TableRow.nop c a
  | ldmem c a => exact Laws.TableRow.ldmem c a
  | stmem c a => exact Laws.TableRow.stmem c a
  | call c a => exact Laws.TableRow.call c a
  | ret c a => exact Laws.TableRow.ret c a
  | jump c a => exact Laws.TableRow.jump c a
  | branch c a => exact Laws.TableRow.branch c a
  | unassigned7 c a => exact Laws.TableRow.unassigned7 c a
  | unassigned8 c a => exact Laws.TableRow.unassigned8 c a
  | pop c a => exact Laws.TableRow.pop c a
  | push c a => exact Laws.TableRow.push c a
  | not c a => exact Laws.TableRow.not c a
  | neg c a => exact Laws.TableRow.neg c a
  | cnot c a => exact Laws.TableRow.cnot c a
  | popcount c a => exact Laws.TableRow.popcount c a
  | bitrev c a => exact Laws.TableRow.bitrev c a
  | add c b a => exact Laws.TableRow.add c b a
  | sub c b a => exact Laws.TableRow.sub c b a
  | mul c b a => exact Laws.TableRow.mul c b a
  | div c b a => exact Laws.TableRow.div c b a
  | xor c b a => exact Laws.TableRow.xor c b a
  | and c b a => exact Laws.TableRow.and c b a
  | or c b a => exact Laws.TableRow.or c b a
  | shl c b a => exact Laws.TableRow.shl c b a
  | shr c b a => exact Laws.TableRow.shr c b a
  | lt c b a => exact Laws.TableRow.lt c b a
  | le c b a => exact Laws.TableRow.le c b a
  | cmove c b a => exact Laws.TableRow.cmove c b a
  | cadd c b a => exact Laws.TableRow.cadd c b a
  | immlow c imm => exact Laws.TableRow.immlow c imm
  | immhigh c imm => exact Laws.TableRow.immhigh c imm

/-- Different rows disagree on a bit that both their masks keep. -/
theorem opcodeRows_disjoint :
    ∀ row ∈ opcodeRows, ∀ other ∈ opcodeRows, other.pattern &&& row.mask = row.pattern &&& other.mask → other = row := by
  decide

/-- A word in two rows gives both patterns on the bits that both masks keep. -/
theorem OpcodeRow.pattern_and_mask_of_holds {row other : OpcodeRow} {w : Word} (inRow : row.holds w = true)
    (inOther : other.holds w = true) : other.pattern &&& row.mask = row.pattern &&& other.mask := by
  rw [OpcodeRow.holds, beq_iff_eq] at inRow inOther
  rw [← inRow, ← inOther, BitVec.and_assoc, BitVec.and_assoc, BitVec.and_comm other.mask]

/-- Settles O4: the word is the encoding of its instruction, whose row holds, and two rows that hold are one. -/
theorem everyWordMatchesOneTableRow : Obligations.EveryWordMatchesOneTableRow := by
  intro w
  obtain ⟨row, inTable, mnemonic, holds⟩ := tableRow_statement (decodeWord w)
  rw [encode_decodeWord] at holds
  exact ⟨row, inTable, holds, mnemonic, fun other otherInTable otherHolds =>
    opcodeRows_disjoint row inTable other otherInTable (OpcodeRow.pattern_and_mask_of_holds holds otherHolds)⟩

/-- Settles O6: each word is the encoding of the instruction the spec writes beside it. -/
theorem specWordsDecode : Obligations.SpecWordsDecode :=
  ⟨decodeWord_encode (.add 2 1 0), decodeWord_encode (.nop 15 15), decodeWord_encode (.unassigned7 0 0),
    decodeWord_encode (.unassigned8 15 15), decodeWord_encode (.bitrev 0 0), decodeWord_encode (.call 5 6),
    decodeWord_encode (.add 15 0 0), decodeWord_encode (.cmove 2 1 0), decodeWord_encode (.immhigh 15 0xFF)⟩

end Sys2Proof
end

section
/-! A step of the machine (R230, R250): what it is in both models, the invariant it keeps, and reset. -/

namespace Sys2Proof.Machine

open Sys2Proof.Safety

/-! ### The data access, part by part (R131) -/

/-- The value a data access answers. -/
theorem memAccess_fst (m : Mnemonic) (aluResult valA valC valP : Word) (mem : Memory) :
    (memAccess m aluResult valA valC valP mem).1 =
      if memoryAccessKind m = .read then Memory.read mem (accessAddress m aluResult valA) else 0 := by
  rcases memAccess_cases m aluResult valA valC valP mem with ⟨kind, access⟩ | ⟨kind, access⟩ | ⟨kind, access⟩ <;>
    simp [kind, access]

/-- The memory a data access leaves. -/
theorem memAccess_snd (m : Mnemonic) (aluResult valA valC valP : Word) (mem : Memory) :
    (memAccess m aluResult valA valC valP mem).2 =
      if memoryAccessKind m = .write then
        Memory.write mem (accessAddress m aluResult valA) (accessData m valA valC valP)
      else mem := by
  rcases memAccess_cases m aluResult valA valC valP mem with ⟨kind, access⟩ | ⟨kind, access⟩ | ⟨kind, access⟩ <;>
    simp [kind, access]

/-- A cell after a data access. -/
theorem memAccess_read (m : Mnemonic) (aluResult valA valC valP : Word) (mem : Memory) (a : Word) :
    Memory.read (memAccess m aluResult valA valC valP mem).2 a =
      if memoryAccessKind m = .write ∧ a = accessAddress m aluResult valA then accessData m valA valC valP
      else Memory.read mem a := by
  rw [memAccess_snd]
  by_cases kind : memoryAccessKind m = .write
  · simp [kind, Memory.read_write]
  · simp [kind]

/-! ### One step -/

/-- Executing the decoded word is the reference step from its raw fields (R250). -/
theorem exec_decodeWord (s : State) :
    exec (decodeWord (Memory.read s.ref.mem s.ref.pc)) s = .next (s.withRef (refStep s.ref)) := by
  rw [exec_eq, ← mnem_fields, decodeWord_fields, ← refStep_eq]

/-- A step always completes. -/
theorem step_eq (s : State) : step s = .next { ref := refStep s.ref, pipe := pipeStep s.pipe } := by
  rw [step, exec_decodeWord]
  rfl

theorem step_next {s t : State} (h : step s = .next t) : t = { ref := refStep s.ref, pipe := pipeStep s.pipe } := by
  rw [step_eq] at h
  cases h
  rfl

theorem exec_pipe {i : Instr} {s t : State} (h : exec i s = .next t) : t.pipe = s.pipe := by
  rw [exec_next h, State.withRef_pipe]

/-- Settles O7: the decoder reads the instruction that step executes, and executing it leaves the pipeline alone. -/
theorem stepRunsDecodedInstruction : Obligations.StepRunsDecodedInstruction := by
  intro s t i rest decoded executes
  obtain ⟨rfl, -⟩ := Decoded.instr.inj ((decode_cons _ _).symm.trans decoded)
  refine ⟨exec_pipe executes, ?_⟩
  rw [step, executes, ← exec_pipe executes]

/-- Settles O8: execution of the decoded word is the reference step, and the clock follows it. -/
theorem stepIsReferenceStepAndClock : Obligations.StepIsReferenceStepAndClock := step_eq

/-- Settles O12: each part of the next state is a function of the same part of the state. -/
theorem modelsShareNothing : Obligations.ModelsShareNothing := by
  intro s₁ s₂ t₁ t₂ step₁ step₂
  rw [step_next step₁, step_next step₂]
  exact ⟨congrArg refStep, congrArg pipeStep⟩

/-- The host's run goes on from the next state. -/
theorem run_succ_of_step_next {M : Host.Core} {s s' : M.State} (steps : M.step s = .next s') (k : Nat) :
    M.run (k + 1) s = M.run k s' := by
  rw [Host.Core.run, steps]

/-- `k` steps are `k` reference steps and `k` clocks. -/
theorem core_run_eq (k : Nat) (s : State) :
    Sys2Proof.core.run k s = .next { ref := refRun k s.ref, pipe := pipeRun k s.pipe } := by
  induction k generalizing s with
  | zero => rfl
  | succ k ih => exact (run_succ_of_step_next (M := Sys2Proof.core) (step_eq s) k).trans (ih _)

/-- Settles O13: by induction on the number of steps. -/
theorem runAdvancesBothModels : Obligations.RunAdvancesBothModels := fun k s =>
  ⟨core_run_eq k s, fun image => ⟨_, core_run_eq k (State.withImage image), rfl⟩⟩

/-! ### The invariant -/

/-- A clock makes the pipeline registers consistent, from any state: Decode rebuilds `data` (R215), and the Memory stage
answers zero for anything but a Read (R226). -/
theorem pipeInv_pipeStep (p : PipeState) : PipeInv (pipeStep p) := by
  constructor
  · rw [pipeStep_E_cur]
  · intro noRead
    rw [pipeStep_W_cur] at noRead ⊢
    exact (memAccess_fst _ _ _ _ _ _).trans (if_neg noRead)

/-- Settles O9: both memories stay canonical under their accesses, and the clock makes its registers consistent. -/
theorem stepKeepsInvariant : Obligations.StepKeepsInvariant := by
  intro s t ⟨refCanonical, pipeCanonical, _⟩ steps
  rw [step_next steps]
  exact ⟨refExecute_wf refCanonical _ _ _ _, pipeStep_mem_wf pipeCanonical, pipeInv_pipeStep s.pipe⟩

/-! ### Reset -/

theorem inv_resetWith {image : Memory} (canonical : Memory.wf image) : Inv (State.resetWith image) :=
  ⟨canonical, canonical, (by decide : (0 : Byte) = bubbleFields.data), fun _ => rfl⟩

/-- Settles O10: the empty memory is canonical, so the reset state is one of those over a canonical image. -/
theorem resetMeetsInvariant : Obligations.ResetMeetsInvariant :=
  ⟨inv_resetWith Memory.wf_nil, fun _ canonical => inv_resetWith canonical⟩

/-- Settles O11: registers by the zero register file, cells by the empty memory, the rest as reset writes them. -/
theorem resetStateIsZero : Obligations.ResetStateIsZero :=
  ⟨fun a => ⟨Memory.readCell_nil a.toNat, Memory.readCell_nil a.toNat⟩, fun _ =>
    ⟨fun r => ⟨RegFile.read_zero r, RegFile.read_zero r⟩, rfl, rfl, rfl, rfl, rfl, rfl, rfl, rfl, rfl⟩⟩

end Sys2Proof.Machine
end

section
/-! The ALU's formulas as values (R160 to R197): each equals the value the statements of its family name. -/

namespace Sys2Proof.Machine

/-! ### Bitwise, unary (R161 to R165) -/

theorem boolWord_eq_ite (b : Bool) : boolWord b = if b = true then 1 else 0 := rfl

theorem truthy_iff (v : Word) : truthy v = true ↔ v ≠ 0 := bne_iff_ne

/-- R162 in two's complement: the complement plus one. -/
theorem aluNeg_eq (A : Word) : aluNeg A = ~~~A + 1 := by
  rw [aluNeg, trunc16, BitVec.ofInt_neg, BitVec.ofInt_toInt, BitVec.neg_eq_not_add]
  rfl

theorem aluCnot_eq (A : Word) : aluCnot A = if A = 0 then 1 else 0 := by
  by_cases zero : A = 0 <;> simp [aluCnot, truthy, boolWord, zero]

theorem foldl_range_add (f : Nat → Nat) (n : Nat) :
    (List.range n).foldl (fun total i => total + f i) 0 = ∑ i ∈ Finset.range n, f i := by
  induction n with
  | zero => rfl
  | succ n ih => rw [List.range_succ, List.foldl_append, ih, Finset.sum_range_succ, List.foldl_cons, List.foldl_nil]

/-- R164: the sum of the bits is the size of the set of bits that are 1. -/
theorem aluPopcount_eq (A : Word) :
    aluPopcount A = BitVec.ofNat 16 (Finset.univ.filter fun i : Fin 16 => A.getLsbD i = true).card := by
  rw [aluPopcount, foldl_range_add fun i => (A.getLsbD i).toNat, Finset.card_filter, Finset.sum_range]
  refine congrArg (BitVec.ofNat 16) (Finset.sum_congr rfl fun i _ => ?_)
  cases A.getLsbD i <;> rfl

/-- Bits in their places, below `2 ^ n`. -/
theorem sum_bits_lt (bit : Nat → Bool) (n : Nat) : ∑ i ∈ Finset.range n, (bit i).toNat * 2 ^ i < 2 ^ n := by
  induction n with
  | zero => simp
  | succ n ih =>
    have one : (bit n).toNat ≤ 1 := Bool.toNat_le _
    have top : (bit n).toNat * 2 ^ n ≤ 1 * 2 ^ n := Nat.mul_le_mul_right _ one
    rw [Finset.sum_range_succ, pow_succ]
    omega

/-- A sum of bits in their places has those bits. -/
theorem testBit_sum_bits (bit : Nat → Bool) (n j : Nat) (below : j < n) :
    (∑ i ∈ Finset.range n, (bit i).toNat * 2 ^ i).testBit j = bit j := by
  induction n with
  | zero => omega
  | succ n ih =>
    rw [Finset.sum_range_succ, add_comm, mul_comm, Nat.testBit_two_pow_mul_add _ (sum_bits_lt bit n)]
    rcases Nat.lt_succ_iff_lt_or_eq.1 below with lower | rfl
    · rw [if_pos lower, ih lower]
    · rw [if_neg (lt_irrefl j), Nat.sub_self]
      cases bit j <;> rfl

/-- R165: bit `i` of the result is bit `15 - i` of the operand. -/
theorem getLsbD_aluBitrev (A : Word) (i : Nat) (hi : i < 16) : (aluBitrev A).getLsbD i = A.getLsbD (15 - i) := by
  rw [aluBitrev, foldl_range_add fun i => (A.getLsbD (15 - i)).toNat * 2 ^ i, BitVec.getLsbD_ofNat,
    testBit_sum_bits (fun i => A.getLsbD (15 - i)) 16 i hi, decide_eq_true hi, Bool.true_and]

theorem aluBitrev_aluBitrev (A : Word) : aluBitrev (aluBitrev A) = A := by
  apply BitVec.eq_of_getLsbD_eq
  intro i hi
  rw [getLsbD_aluBitrev _ i hi, getLsbD_aluBitrev _ (15 - i) (by omega)]
  congr 1
  omega

/-! ### Arithmetic, logic and compare (R172 to R181) -/

/-- R172: the difference of the signed readings, truncated. -/
theorem aluSub_eq (B A : Word) : aluSub B A = trunc16 (s16 B - s16 A) := by
  rw [aluSub, trunc16, Int.sub_eq_add_neg, BitVec.ofInt_add, BitVec.ofInt_neg, BitVec.ofInt_toInt, BitVec.ofInt_toInt,
    BitVec.sub_eq_add_neg]

/-- R173: the product of the unsigned readings has the same low 16 bits. -/
theorem aluMul_eq_unsigned (B A : Word) : aluMul B A = BitVec.ofNat 16 (u16 B * u16 A) := by
  rw [aluMul, trunc16, BitVec.ofInt_mul, BitVec.ofInt_toInt, BitVec.ofInt_toInt, BitVec.ofNat_mul, BitVec.ofNat_toNat,
    BitVec.ofNat_toNat, BitVec.setWidth_eq, BitVec.setWidth_eq]

/-- R174: the truncating signed division, open for a zero divisor. -/
theorem aluDiv_eq (B A : Word) : aluDiv B A = if A = 0 then Config.divZero B else BitVec.sdiv B A := by
  have quotient : trunc16 ((s16 B).tdiv (s16 A)) = BitVec.sdiv B A := by
    apply BitVec.eq_of_toInt_eq
    rw [BitVec.toInt_ofInt, BitVec.toInt_sdiv]
  rw [aluDiv, quotient]

/-- The signed range 0..15 is the unsigned range below 16 (D8). -/
theorem shiftAmount_iff (A : Word) : (0 ≤ s16 A ∧ s16 A ≤ 15) ↔ u16 A < 16 := by
  have := A.isLt
  rw [s16, u16, BitVec.toInt_eq_toNat_cond]
  split <;> omega

/-- For such an amount both readings are one number. -/
theorem s16_toNat_of_lt {A : Word} (small : u16 A < 16) : (s16 A).toNat = u16 A := by
  rw [u16] at small
  rw [s16, BitVec.toInt_eq_toNat_cond, if_pos (by omega), Int.toNat_natCast]

theorem aluShl_eq (B A : Word) :
    aluShl B A = if u16 A < 16 then B <<< u16 A else Config.shiftOOR .shl B A := by
  rw [aluShl]
  simp only [shiftAmount_iff]
  refine ite_congr rfl (fun small => ?_) fun _ => rfl
  have product : ((u16 B : Int) * 2 ^ u16 A) = ((u16 B * 2 ^ u16 A : Nat) : Int) := by push_cast; rfl
  rw [s16_toNat_of_lt small, product, trunc16, BitVec.ofInt_natCast]
  apply BitVec.eq_of_toNat_eq
  rw [BitVec.toNat_ofNat, BitVec.toNat_shiftLeft, Nat.shiftLeft_eq]

theorem aluShr_eq (B A : Word) :
    aluShr B A = if u16 A < 16 then B.sshiftRight (u16 A) else Config.shiftOOR .shr B A := by
  rw [aluShr]
  simp only [shiftAmount_iff]
  refine ite_congr rfl (fun small => ?_) fun _ => rfl
  rw [s16_toNat_of_lt small, BitVec.sshiftRight_eq, Int.shiftRight_eq_div_pow,
    Int.fdiv_eq_ediv_of_nonneg _ (by positivity)]
  norm_cast

theorem aluLt_eq (B A : Word) : aluLt B A = if s16 B < s16 A then 1 else 0 := by
  simp only [aluLt, boolWord_eq_ite, decide_eq_true_eq]

theorem aluLe_eq (B A : Word) : aluLe B A = if s16 B ≤ s16 A then 1 else 0 := by
  simp only [aluLe, boolWord_eq_ite, decide_eq_true_eq]

/-! ### Conditional and immediate (R191 to R197) -/

theorem aluCmove_eq (B A C : Word) : aluCmove B A C = if B = 0 then C else A := by
  simp only [aluCmove, truthy_iff, ne_eq, ite_not]

theorem aluCadd_eq (B A C : Word) : aluCadd B A C = if B = 0 then C else C + A := by
  simp only [aluCadd, truthy_iff, ne_eq, ite_not]

/-- Which bit of which byte each bit of a word is. -/
theorem getLsbD_bytes (hi lo : Byte) (i : Nat) :
    (hi ++ lo : Word).getLsbD i = if i < 8 then lo.getLsbD i else hi.getLsbD (i - 8) :=
  BitVec.getLsbD_append (x := hi) (y := lo) (i := i)

theorem aluImmlow_eq (C : Word) (data : Byte) : aluImmlow C data = C.extractLsb' 8 8 ++ data := by
  apply BitVec.eq_of_getLsbD_eq
  intro i hi
  rw [getLsbD_bytes]
  interval_cases i <;> simp [aluImmlow]

theorem aluImmhigh_eq (C : Word) (data : Byte) : aluImmhigh C data = data ++ C.extractLsb' 0 8 := by
  apply BitVec.eq_of_getLsbD_eq
  intro i hi
  rw [getLsbD_bytes]
  interval_cases i <;> simp [aluImmhigh]

end Sys2Proof.Machine
end

section
/-! What each instruction leaves in the reference model (files 40 to 46). The families that only write an ALU result
follow from `writesOnly_of_aluRow`; each instruction of the memory and control family has its next state written
out once. -/

namespace Sys2Proof.Machine

open Sys2Proof.Safety

/-! ### Families that only write an ALU result (R160, R170, R190, R195) -/

/-- `writesOnly_of_aluRow` for an instruction whose word is written from four fields (R80), its result given in any
equal form. -/
theorem writesOnly_of_encBase {i : Instr} {fn c b a : Nibble} {v : State → Word} (code : encode i = encBase fn c b a)
    (row : controlTable (some i.mnemonic) = aluRow)
    (result : ∀ s, alu i.mnemonic (regOf s a) (regOf s b) (regOf s c) (b ++ a) (succPc s) = v s) : WritesOnly i c v := by
  have effect := writesOnly_of_aluRow row
  rw [Instr.fields, code, fieldsOf_encBase] at effect
  exact (funext result : _ = v) ▸ effect

/-- The same for an immediate instruction, whose byte fills the two low fields (R76). -/
theorem writesOnly_of_encImm {i : Instr} {fn c : Nibble} {imm : Byte} {v : State → Word} (code : encode i = encImm fn c imm)
    (row : controlTable (some i.mnemonic) = aluRow)
    (result : ∀ s, alu i.mnemonic (regOf s (Byte.lo imm)) (regOf s (Byte.hi imm)) (regOf s c) imm (succPc s) = v s) :
    WritesOnly i c v :=
  writesOnly_of_encBase (code.trans (encImm_eq_encBase fn c imm)) row fun s => by
    rw [Byte.hi_append_lo]
    exact result s

/-- Settles O24, by the formulas of `neg` and `cnot`. -/
theorem unaryNotNegCnot : Obligations.UnaryNotNegCnot := fun _ rA =>
  ⟨writesOnly_of_encBase (fn := 0) (b := 11) (a := rA) rfl rfl fun _ => rfl,
    writesOnly_of_encBase (fn := 0) (b := 12) (a := rA) rfl rfl fun s => aluNeg_eq (regOf s rA),
    writesOnly_of_encBase (fn := 0) (b := 13) (a := rA) rfl rfl fun s => aluCnot_eq (regOf s rA)⟩

/-- Settles O25, by the sum of the bits. -/
theorem popcountCountsOneBits : Obligations.PopcountCountsOneBits := fun _ rA =>
  writesOnly_of_encBase (fn := 0) (b := 14) (a := rA) rfl rfl fun s => aluPopcount_eq (regOf s rA)

/-- Settles O26: the value is the formula's, whose bits are the operand's in reverse. -/
theorem bitrevReversesBits : Obligations.BitrevReversesBits :=
  ⟨aluBitrev_aluBitrev, fun _ rA =>
    ⟨fun s => aluBitrev (regOf s rA), writesOnly_of_encBase (fn := 0) (b := 15) (a := rA) rfl rfl fun _ => rfl,
      fun s i hi => getLsbD_aluBitrev (regOf s rA) i hi⟩⟩

/-- Settles O28, by the signed and the unsigned reading of each formula. -/
theorem subAndMulWrap : Obligations.SubAndMulWrap := fun rC rB rA =>
  ⟨writesOnly_of_encBase (i := .sub rC rB rA) rfl rfl fun s => aluSub_eq (regOf s rB) (regOf s rA),
    writesOnly_of_encBase (i := .mul rC rB rA) rfl rfl fun _ => rfl,
    writesOnly_of_encBase (i := .mul rC rB rA) rfl rfl fun s => aluMul_eq_unsigned (regOf s rB) (regOf s rA)⟩

/-- Settles O29: the boundary quotient wraps, and every other is the library's truncating division. -/
theorem divTruncatesOrIsOpen : Obligations.DivTruncatesOrIsOpen :=
  ⟨by decide, fun rC rB rA =>
    writesOnly_of_encBase (i := .div rC rB rA) rfl rfl fun s => aluDiv_eq (regOf s rB) (regOf s rA)⟩

/-- Settles O30: each result is its formula. -/
theorem logicAndCompareResults : Obligations.LogicAndCompareResults := fun rC rB rA =>
  ⟨writesOnly_of_encBase (i := .xor rC rB rA) rfl rfl fun _ => rfl,
    writesOnly_of_encBase (i := .and rC rB rA) rfl rfl fun _ => rfl,
    writesOnly_of_encBase (i := .or rC rB rA) rfl rfl fun _ => rfl,
    writesOnly_of_encBase (i := .lt rC rB rA) rfl rfl fun s => aluLt_eq (regOf s rB) (regOf s rA),
    writesOnly_of_encBase (i := .le rC rB rA) rfl rfl fun s => aluLe_eq (regOf s rB) (regOf s rA)⟩

/-- Settles O31, by the shifts for an amount below 16. -/
theorem shiftsByInRangeAmounts : Obligations.ShiftsByInRangeAmounts := fun rC rB rA =>
  ⟨writesOnly_of_encBase (i := .shl rC rB rA) rfl rfl fun s => aluShl_eq (regOf s rB) (regOf s rA),
    writesOnly_of_encBase (i := .shr rC rB rA) rfl rfl fun s => aluShr_eq (regOf s rB) (regOf s rA)⟩

/-- Settles O32, by the selection on a zero condition. -/
theorem conditionalsSelectByValB : Obligations.ConditionalsSelectByValB := fun rC rB rA =>
  ⟨writesOnly_of_encBase (i := .cmove rC rB rA) rfl rfl fun s => aluCmove_eq (regOf s rB) (regOf s rA) (regOf s rC),
    writesOnly_of_encBase (i := .cadd rC rB rA) rfl rfl fun s => aluCadd_eq (regOf s rB) (regOf s rA) (regOf s rC)⟩

/-- Settles O33, by the bytes of each result. -/
theorem immediatesReplaceOneByte : Obligations.ImmediatesReplaceOneByte := fun rC imm =>
  ⟨writesOnly_of_encImm (i := .immlow rC imm) rfl rfl fun s => aluImmlow_eq (regOf s rC) imm,
    writesOnly_of_encImm (i := .immhigh rC imm) rfl rfl fun s => aluImmhigh_eq (regOf s rC) imm⟩

/-! ### The memory and control family, each next state written out (R104, R105, R141 to R148) -/

theorem exec_nop (c a : Nibble) (s : State) : exec (.nop c a) s = .next (s.withRef { s.ref with pc := succPc s }) := rfl

theorem exec_unassigned7 (c a : Nibble) (s : State) :
    exec (.unassigned7 c a) s = .next (s.withRef { s.ref with pc := succPc s }) := rfl

theorem exec_unassigned8 (c a : Nibble) (s : State) :
    exec (.unassigned8 c a) s = .next (s.withRef { s.ref with pc := succPc s }) := rfl

theorem exec_ldmem (rC rA : RegNum) (s : State) :
    exec (.ldmem rC rA) s =
      .next (s.withRef
        { s.ref with reg := RegFile.write s.ref.reg rC (cellOf s (regOf s rA)), pc := succPc s }) := rfl

theorem exec_stmem (rC rA : RegNum) (s : State) :
    exec (.stmem rC rA) s =
      .next (s.withRef { s.ref with mem := Memory.write s.ref.mem (regOf s rC) (regOf s rA), pc := succPc s }) := rfl

theorem exec_call (rC rA : RegNum) (s : State) :
    exec (.call rC rA) s =
      .next (s.withRef { s.ref with mem := Memory.write s.ref.mem (regOf s rA) (succPc s), pc := regOf s rC }) := rfl

theorem exec_ret (c : Nibble) (rA : RegNum) (s : State) :
    exec (.ret c rA) s = .next (s.withRef { s.ref with pc := cellOf s (regOf s rA) }) := rfl

theorem exec_jump (c : Nibble) (rA : RegNum) (s : State) :
    exec (.jump c rA) s = .next (s.withRef { s.ref with pc := succPc s + regOf s rA }) := rfl

theorem exec_branch (rC rA : RegNum) (s : State) :
    exec (.branch rC rA) s =
      .next (s.withRef
        { s.ref with pc := if regOf s rC = 0 then succPc s else succPc s + regOf s rA }) := by
  have target : aluBranch (regOf s rA) (regOf s rC) (succPc s) =
      if regOf s rC = 0 then succPc s else succPc s + regOf s rA := by
    simp only [aluBranch, truthy_iff, ne_eq, ite_not]
  rw [← target]
  rfl

theorem exec_pop (rC rA : RegNum) (s : State) :
    exec (.pop rC rA) s =
      .next (s.withRef
        { s.ref with
          reg := RegFile.write (RegFile.write s.ref.reg rC (cellOf s (regOf s rA))) rA (regOf s rA + 1)
          pc := succPc s }) := rfl

theorem exec_push (rC rA : RegNum) (s : State) :
    exec (.push rC rA) s =
      .next (s.withRef
        { reg := RegFile.write s.ref.reg rA (regOf s rA - 1)
          mem := Memory.write s.ref.mem (regOf s rA - 1) (regOf s rC)
          pc := succPc s }) := rfl

/-- An instruction completes when its next state reads as claimed; the pipeline part is `s`'s by construction. -/
theorem completes_of_exec {i : Instr} {next : State → RefState} {pc : State → Word} {reg : State → RegNum → Word}
    {mem : State → Word → Word} (executes : ∀ s, exec i s = .next (s.withRef (next s))) (goesTo : ∀ s, (next s).pc = pc s)
    (registers : ∀ s r, RegFile.read (next s).reg r = reg s r) (cells : ∀ s a, Memory.read (next s).mem a = mem s a) :
    Completes i pc reg mem := fun s =>
  ⟨_, executes s, goesTo s, registers s, cells s, rfl⟩

/-- Settles O14: each next state differs in pc alone. -/
theorem noOpsOnlyAdvance : Obligations.NoOpsOnlyAdvance := fun c a =>
  ⟨completes_of_exec (exec_nop c a) (fun _ => rfl) (fun _ _ => rfl) fun _ _ => rfl,
    completes_of_exec (exec_unassigned7 c a) (fun _ => rfl) (fun _ _ => rfl) fun _ _ => rfl,
    completes_of_exec (exec_unassigned8 c a) (fun _ => rfl) (fun _ _ => rfl) fun _ _ => rfl⟩

/-- Settles O15, by the read after the write of `rnumc`. -/
theorem ldmemLoadsAddressedCell : Obligations.LdmemLoadsAddressedCell := fun rC rA =>
  completes_of_exec (exec_ldmem rC rA) (fun _ => rfl) (fun _ r => RegFile.read_write _ rC r _) fun _ _ => rfl

/-- Settles O16, by the read after the write of the cell. -/
theorem stmemStoresAtValC : Obligations.StmemStoresAtValC := fun rC rA =>
  completes_of_exec (exec_stmem rC rA) (fun _ => rfl) (fun _ _ => rfl) fun _ a => Memory.read_write _ _ a _

/-- Settles O17, by the read after the write of the link cell. -/
theorem callLinksAndJumps : Obligations.CallLinksAndJumps := fun rC rA =>
  completes_of_exec (exec_call rC rA) (fun _ => rfl) (fun _ _ => rfl) fun _ a => Memory.read_write _ _ a _

/-- Settles O18: only pc is another, and it is the link cell's. -/
theorem returnJumpsThroughLinkCell : Obligations.ReturnJumpsThroughLinkCell := fun c rA =>
  completes_of_exec (exec_ret c rA) (fun _ => rfl) (fun _ _ => rfl) fun _ _ => rfl

/-- Settles O19: only pc is another, and it is the target. -/
theorem jumpAndBranchAreRelative : Obligations.JumpAndBranchAreRelative :=
  ⟨fun c rA => completes_of_exec (exec_jump c rA) (fun _ => rfl) (fun _ _ => rfl) fun _ _ => rfl,
    fun rC rA => completes_of_exec (exec_branch rC rA) (fun _ => rfl) (fun _ _ => rfl) fun _ _ => rfl⟩

/-- Settles O20: the pointer is written last. -/
theorem popLoadsAndAdvancesPointer : Obligations.PopLoadsAndAdvancesPointer := fun rC rA =>
  completes_of_exec (exec_pop rC rA) (fun _ => rfl)
    (fun s r => by simp only [RegFile.read_write]) fun _ _ => rfl

/-- Settles O21, by the reads after the write of the pointer and of the cell. -/
theorem pushStoresBelowPointer : Obligations.PushStoresBelowPointer := fun rC rA =>
  completes_of_exec (exec_push rC rA) (fun _ => rfl) (fun _ r => RegFile.read_write _ rA r _)
    fun _ a => Memory.read_write _ _ a _

/-! ### Two instructions in a row -/

theorem succ_succ_pc (v : Word) : v + 1 + 1 = v + 2 := by rw [BitVec.add_assoc]; rfl

theorem setAt_same {α β : Type} [DecidableEq α] (g : α → β) (x : α) (v : β) : setAt g x v x = v := if_pos rfl

theorem setAt_of_ne {α β : Type} [DecidableEq α] (g : α → β) {x y : α} (v : β) (h : y ≠ x) : setAt g x v y = g y :=
  if_neg h

/-- Settles O22: pop finds the pointer that push left and the word below it, and both registers get their old values. -/
theorem pushThenPopRestores : Obligations.PushThenPopRestores := by
  intro rC rA s distinct
  obtain ⟨t, pushes, pcT, regT, memT, pipeT⟩ := pushStoresBelowPointer rC rA s
  obtain ⟨u, pops, pcU, regU, memU, pipeU⟩ := popLoadsAndAdvancesPointer rC rA t
  have pointer : regOf t rA = regOf s rA - 1 := (regT rA).trans (setAt_same _ _ _)
  have pushed : cellOf t (regOf s rA - 1) = regOf s rC := (memT _).trans (setAt_same _ _ _)
  refine ⟨t, u, pushes, pops, ?_, fun r => ?_, fun a => (memU a).trans (memT a), pipeU.trans pipeT⟩
  · rw [pcU, succPc, pcT, succ_succ_pc]
  · rw [regU]
    dsimp only
    rw [pointer, pushed]
    split
    case isTrue isPointer => rw [isPointer, BitVec.sub_add_cancel]
    case isFalse notPointer =>
      split
      case isTrue isTarget => rw [isTarget]
      case isFalse _ => exact (regT r).trans (setAt_of_ne _ _ notPointer)

/-- Settles O23: the link cell is where return looks. -/
theorem returnUndoesCall : Obligations.ReturnUndoesCall := by
  intro rC rA c s
  obtain ⟨t, calls, -, regT, memT, pipeT⟩ := callLinksAndJumps rC rA s
  obtain ⟨u, returns, pcU, regU, memU, pipeU⟩ := returnJumpsThroughLinkCell c rA t
  have link : cellOf t (regOf t rA) = succPc s := by rw [regOf, regT rA]; exact (memT _).trans (setAt_same _ _ _)
  exact ⟨t, u, calls, returns, pcU.trans link, fun r => (regU r).trans (regT r), fun a => (memU a).trans (memT a),
    pipeU.trans pipeT⟩

/-- Two instructions that each only write register `d` leave what the second writes. -/
theorem writesOnly_twice {i j : Instr} {d : RegNum} {v w : State → Word} (first : WritesOnly i d v)
    (second : WritesOnly j d w) (s : State) : ∃ t u : State, exec i s = .next t ∧ exec j t = .next u ∧
      regOf t d = v s ∧ RefLeaves s u (s.ref.pc + 2) (setAt (regOf s) d (w t)) (cellOf s) := by
  obtain ⟨t, firstRuns, pcT, regT, memT, pipeT⟩ := first s
  obtain ⟨u, secondRuns, pcU, regU, memU, pipeU⟩ := second t
  refine ⟨t, u, firstRuns, secondRuns, (regT d).trans (setAt_same _ _ _), ?_, fun r => ?_, fun a => (memU a).trans (memT a),
    pipeU.trans pipeT⟩
  · rw [pcU, succPc, pcT, succ_succ_pc]
  · rw [regU]
    dsimp only
    by_cases target : r = d
    · subst target
      rw [setAt_same, setAt_same]
    · rw [setAt_of_ne _ _ target, setAt_of_ne _ _ target]
      exact (regT r).trans (setAt_of_ne _ _ target)

theorem highByte_append (hi lo : Byte) : (hi ++ lo : Word).extractLsb' 8 8 = hi := by
  apply BitVec.eq_of_getLsbD_eq
  intro i below
  rw [BitVec.getLsbD_extractLsb', getLsbD_bytes, if_neg (by omega), Nat.add_sub_cancel_left, decide_eq_true below,
    Bool.true_and]

theorem lowByte_append (hi lo : Byte) : (hi ++ lo : Word).extractLsb' 0 8 = lo := by
  apply BitVec.eq_of_getLsbD_eq
  intro i below
  rw [BitVec.getLsbD_extractLsb', getLsbD_bytes, if_pos (by omega), Nat.zero_add, decide_eq_true below, Bool.true_and]

/-- Settles O34: the second immediate keeps the byte that the first has put there. -/
theorem immediatePairLoadsWord : Obligations.ImmediatePairLoadsWord := by
  intro r hi lo s
  obtain ⟨low, -⟩ := immediatesReplaceOneByte r lo
  obtain ⟨-, high⟩ := immediatesReplaceOneByte r hi
  obtain ⟨t, u, highRuns, lowAfter, heldT, leavesU⟩ := writesOnly_twice high low s
  obtain ⟨t', u', lowRuns, highAfter, heldT', leavesU'⟩ := writesOnly_twice low high s
  rw [heldT, highByte_append] at leavesU
  rw [heldT', lowByte_append] at leavesU'
  exact ⟨t, u, t', u', highRuns, lowAfter, lowRuns, highAfter, leavesU, leavesU'⟩

end Sys2Proof.Machine
end

section
/-! What no instruction does (R22, R121, R123, R129): registers, cells and pc change only where a control signal says so. -/

namespace Sys2Proof.Machine

open Sys2Proof.Safety

/-- A write-back leaves every register that its instruction does not write. -/
theorem commitWB_read_of_not_writesReg {f : Fields} {r : RegNum} (kept : writesReg f r = false) (aluResult memValue : Word)
    (x : RegFile) : RegFile.read (commitWB f.mnem f.rnumc f.rnuma aluResult memValue x) r = RegFile.read x r := by
  rw [writesReg, Bool.or_eq_false_iff, Bool.and_eq_false_imp, Bool.and_eq_false_imp] at kept
  obtain ⟨noMemoryWriteBack, noAluWriteBack⟩ := kept
  rw [commitWB_read, if_neg, if_neg]
  · exact fun ⟨enabled, named⟩ => beq_eq_false_iff_ne.1 (noMemoryWriteBack enabled) named.symm
  · exact fun ⟨enabled, named⟩ => beq_eq_false_iff_ne.1 (noAluWriteBack enabled) named.symm

/-- Settles O35: a register that the instruction's fields do not write is kept. -/
theorem onlyWriteBackWritesRegisters : Obligations.OnlyWriteBackWritesRegisters := by
  intro i s t r executes changed
  by_contra notWritten
  rw [exec_next executes, ← mnem_fields] at changed
  exact changed (commitWB_read_of_not_writesReg (Bool.not_eq_true _ ▸ notWritten) _ _ _)

/-- Only a memory Write changes the memory. -/
theorem exec_mem_of_not_write {i : Instr} {s t : State} (executes : exec i s = .next t)
    (noWrite : memoryAccessKind i.mnemonic ≠ .write) : t.ref.mem = s.ref.mem := by
  rw [exec_next executes]
  exact (memAccess_snd _ _ _ _ _ _).trans (if_neg noWrite)

/-- A sequential instruction goes on at the next word. -/
theorem exec_pc_of_sequential {i : Instr} {s t : State} (executes : exec i s = .next t)
    (sequential : pcSource i.mnemonic = .sequential) : t.ref.pc = succPc s := by
  rw [exec_next executes, State.withRef_ref, refExecute, pcSelect, sequential]
  rfl

/-- What an instruction that completes leaves, for the state that `exec` answers. -/
theorem leaves_of_completes {i : Instr} {pc : State → Word} {reg : State → RegNum → Word} {mem : State → Word → Word}
    (completes : Completes i pc reg mem) {s t : State} (executes : exec i s = .next t) :
    RefLeaves s t (pc s) (reg s) (mem s) := by
  obtain ⟨u, executes', leaves⟩ := completes s
  cases executes.symm.trans executes'
  exact leaves

/-- A function changed at one point differs at no other. -/
theorem eq_of_setAt_ne {α β : Type} [DecidableEq α] {g : α → β} {x y : α} {v w : β} (value : w = setAt g x v y)
    (changed : w ≠ g y) : y = x := by
  by_contra other
  exact changed (value.trans (setAt_of_ne g v other))

/-- Settles O36: the three instructions that write memory, each by what it leaves. -/
theorem onlyThreeInstructionsWriteMemory : Obligations.OnlyThreeInstructionsWriteMemory := by
  intro i s t a executes changed
  cases i with
  | stmem rC rA =>
    obtain ⟨-, -, cells, -⟩ := leaves_of_completes (stmemStoresAtValC rC rA) executes
    exact .inl ⟨rC, rA, rfl, eq_of_setAt_ne (cells a) changed⟩
  | call rC rA =>
    obtain ⟨-, -, cells, -⟩ := leaves_of_completes (callLinksAndJumps rC rA) executes
    exact .inr (.inl ⟨rC, rA, rfl, eq_of_setAt_ne (cells a) changed⟩)
  | push rC rA =>
    obtain ⟨-, -, cells, -⟩ := leaves_of_completes (pushStoresBelowPointer rC rA) executes
    exact .inr (.inr ⟨rC, rA, rfl, eq_of_setAt_ne (cells a) changed⟩)
  | _ => exact absurd (congrArg (Memory.read · a) (exec_mem_of_not_write executes nofun)) changed

/-- Settles O37: every other instruction is sequential. -/
theorem onlyTransfersLeaveSequence : Obligations.OnlyTransfersLeaveSequence := by
  intro i s t executes leavesSequence
  cases i with
  | call rC rA => exact .inl ⟨rC, rA, rfl⟩
  | ret c rA => exact .inr (.inl ⟨c, rA, rfl⟩)
  | jump c rA => exact .inr (.inr (.inl ⟨c, rA, rfl⟩))
  | branch rC rA => exact .inr (.inr (.inr ⟨rC, rA, rfl⟩))
  | _ => exact absurd (exec_pc_of_sequential executes rfl) leavesSequence

end Sys2Proof.Machine
end

section
/-! One clock of the pipeline (R210 to R235), stage by stage. -/

namespace Sys2Proof.Machine

open Sys2Proof.Safety

/-! ### Signals by mnemonic (R121 to R125) -/

@[simp] theorem bubbleFields_mnem : bubbleFields.mnem = .nop := by decide

theorem bubbleInsert_iff (m : Mnemonic) : bubbleInsert m = true ↔ m = .unassigned := by
  cases m <;> decide

theorem pcSelect_eq (m : Mnemonic) (seqPc aluResult memValue valC : Word) :
    pcSelect m seqPc aluResult memValue valC =
      if pcSource m = .valC then valC else if pcSource m = .memValue then memValue
      else if pcSource m = .aluResult then aluResult else seqPc := by
  rw [pcSelect]
  cases pcSource m <;> rfl

theorem pcSource_of_not_transfer {m : Mnemonic} (noTransfer : isTransfer m = false) : pcSource m = .sequential := by
  cases m with
  | call | ret | jump | branch => exact absurd noTransfer (by decide)
  | _ => rfl

theorem accessAddress_eq (m : Mnemonic) (aluResult valA : Word) :
    accessAddress m aluResult valA = if addressSource m = .valA then valA else aluResult := by
  rw [accessAddress]
  cases addressSource m <;> rfl

theorem accessData_eq (m : Mnemonic) (valA valC valP : Word) :
    accessData m valA valC valP =
      if memoryWriteDataSource m = .valC then valC else if memoryWriteDataSource m = .valP then valP else valA := by
  rw [accessData]
  cases memoryWriteDataSource m <;> rfl

/-! ### The register file, the memory and the selected pc -/

/-- Every register after a clock (R129, R228). -/
theorem pipeStep_reg_read (p : PipeState) (r : RegNum) :
    RegFile.read (pipeStep p).reg r =
      if aluWriteBackEnable p.W.cur.f.mnem = true ∧ r = destOfFields p.W.cur.f then p.W.cur.aluResult
      else if memoryWriteBackEnable p.W.cur.f.mnem = true ∧ r = p.W.cur.f.rnumc then p.W.cur.memValue
      else RegFile.read p.reg r := by
  rw [pipeStep_reg, commitWB_read, destOfFields]

/-- Every cell after a clock (R225). -/
theorem pipeStep_mem_read (p : PipeState) (a : Word) :
    Memory.read (pipeStep p).mem a =
      if memoryAccessKind p.M.cur.f.mnem = .write ∧
          a = accessAddress p.M.cur.f.mnem p.M.cur.aluResult p.M.cur.valA then
        accessData p.M.cur.f.mnem p.M.cur.valA p.M.cur.valC p.M.cur.valP
      else Memory.read p.mem a := by
  rw [pipeStep_mem, memoryStageAccess, memAccess_read]

theorem pipeStep_memValue (p : PipeState) :
    (pipeStep p).W.cur.memValue =
      if memoryAccessKind p.M.cur.f.mnem = .read then
        Memory.read p.mem (accessAddress p.M.cur.f.mnem p.M.cur.aluResult p.M.cur.valA)
      else 0 := by
  rw [pipeStep_W_cur]
  exact memAccess_fst _ _ _ _ _ _

theorem PipeState.sel_of_not_transfer {p : PipeState} (noTransfer : isTransfer p.W.cur.f.mnem = false) :
    p.sel = p.F.cur.pc := by
  rw [sel, pcSelect, pcSource_of_not_transfer noTransfer]

/-- `F.pc` after a clock: held under a bubble, else advanced (R213, R214). -/
theorem pipeStep_pc (p : PipeState) :
    (pipeStep p).F.cur.pc = if bubbleInsert p.D.cur.f.mnem = true then p.sel else p.sel + 1 := by
  rw [pipeStep_F_cur]
  split <;> rfl

theorem pipeStep_of_bubble {p : PipeState} (bubble : p.D.cur.f.mnem = .unassigned) :
    (pipeStep p).D.cur = { f := bubbleFields, valP := p.sel } ∧ (pipeStep p).F.cur.pc = p.sel := by
  rw [pipeStep_D_cur, pipeStep_pc, if_pos ((bubbleInsert_iff _).2 bubble), if_pos ((bubbleInsert_iff _).2 bubble)]
  exact ⟨rfl, rfl⟩

theorem pipeStep_of_no_bubble {p : PipeState} (noBubble : p.D.cur.f.mnem ≠ .unassigned) :
    (pipeStep p).D.cur = { f := fieldsOf (Memory.read (pipeStep p).mem p.sel), valP := p.sel + 1 } ∧
      (pipeStep p).F.cur.pc = p.sel + 1 := by
  rw [pipeStep_D_cur, pipeStep_pc, if_neg (noBubble ∘ (bubbleInsert_iff _).1),
    if_neg (noBubble ∘ (bubbleInsert_iff _).1)]
  exact ⟨rfl, rfl⟩

/-! ### The control unit's outputs (R120, R130) -/

theorem PipeState.control_eq (p : PipeState) :
    p.control =
      ⟨pcSource p.W.cur.f.mnem, bubbleInsert p.D.cur.f.mnem, memoryAccessKind p.M.cur.f.mnem,
        addressSource p.M.cur.f.mnem, memoryWriteDataSource p.M.cur.f.mnem, destOfFields p.W.cur.f,
        memoryWriteBackEnable p.W.cur.f.mnem, aluWriteBackEnable p.W.cur.f.mnem⟩ := rfl

/-- Settles O38: the table row by row, then each part of a clock by the signal that drives it. -/
theorem controlTableIsTheSignals : Obligations.ControlTableIsTheSignals := by
  refine ⟨controlTable_some, rfl, fun p => ⟨?_, pcSelect_eq _ _ _ _ _, pipeStep_pc p, pipeStep_reg_read p, ?_⟩⟩
  · rw [PipeState.control_eq, destOfFields_eq]
  · intro addr data isAddress isData
    have address : addr = accessAddress p.M.cur.f.mnem p.M.cur.aluResult p.M.cur.valA :=
      isAddress.trans (accessAddress_eq _ _ _).symm
    have word : data = accessData p.M.cur.f.mnem p.M.cur.valA p.M.cur.valC p.M.cur.valP :=
      isData.trans (accessData_eq _ _ _ _).symm
    rw [address, word]
    exact ⟨pipeStep_mem_read p, pipeStep_memValue p⟩

/-! ### The hazard unit (R200 to R203) -/

/-- Settles O40: the report's Boolean conditions as propositions. -/
theorem detectorReportsExactly : Obligations.DetectorReportsExactly := by
  intro p q
  rw [hazardDetect_eq, ← destOfFields_eq]
  simp only [Bool.and_eq_true, Bool.or_eq_true, beq_iff_eq, and_assoc, aluWriteBackEnable, and_self]

/-- Settles O41: a clock moves the fields in Execute and Decode to Memory and Execute. -/
theorem bypassUsesLastCyclesReport : Obligations.BypassUsesLastCyclesReport := by
  intro p
  rw [PipeState.fwd, PipeState.hazardED, pipeStep_M_cur, pipeStep_E_cur]

/-! ### WriteBack, Memory, Execute, Decode -/

/-- Settles O44: registers by the commit's order, the selected pc by the resident's signal. -/
theorem writeBackCommitsInOrder : Obligations.WriteBackCommitsInOrder := by
  intro p
  refine ⟨fun r => ?_, ?_, ?_, ?_, ?_⟩
  · rw [pipeStep_reg_read, destOfFields_eq]
  all_goals
    intro source
    rw [PipeState.sel, pcSelect, source]

/-- The cell an access stores to and the word it stores, by mnemonic: `stmem`, `call` and `push` alone store. -/
theorem storedWord_eq (m : Mnemonic) (aluResult valA valC valP held a : Word) :
    (if memoryAccessKind m = .write ∧ a = accessAddress m aluResult valA then accessData m valA valC valP else held) =
      if m = .stmem ∧ a = aluResult then valA else if m = .call ∧ a = aluResult then valP
      else if m = .push ∧ a = aluResult then valC else held := by
  cases m <;> simp [memoryAccessKind, accessAddress, addressSource, accessData, memoryWriteDataSource]

/-- The word an access answers, by mnemonic: `ldmem`, `pop` and `return` alone load. -/
theorem loadedWord_eq (m : Mnemonic) (aluResult valA : Word) (mem : Memory) :
    (if memoryAccessKind m = .read then Memory.read mem (accessAddress m aluResult valA) else 0) =
      if m = .ldmem then Memory.read mem aluResult else if m = .pop ∨ m = .ret then Memory.read mem valA else 0 := by
  cases m <;> simp [memoryAccessKind, accessAddress, addressSource]

/-- Settles O45: the access by its kind, and the kind by the mnemonic. -/
theorem memoryStageAccessesByMnemonic : Obligations.MemoryStageAccessesByMnemonic := by
  intro p
  constructor
  · intro a
    rw [pipeStep_mem_read, storedWord_eq]
  · rw [pipeStep_W_cur, memoryStageAccess, memAccess_fst, loadedWord_eq]

/-- The bypass takes the producer's result for a register that the consumer names (R222): the report for the pair adds
nothing once the name matches. -/
theorem PipeState.opA_eq (p : PipeState) :
    p.opA =
      if aluWriteBackEnable p.M.cur.f.mnem = true ∧ aluWriteBackEnable p.E.cur.f.mnem = true ∧
        p.E.cur.f.rnuma = destOfFields p.M.cur.f then p.M.cur.aluResult else p.E.cur.valA := by
  rw [opA, fwd, hazardDetect]
  refine if_congr ?_ rfl rfl
  simp only [Bool.and_eq_true, Bool.or_eq_true, beq_iff_eq]
  tauto

theorem PipeState.opB_eq (p : PipeState) :
    p.opB =
      if aluWriteBackEnable p.M.cur.f.mnem = true ∧ aluWriteBackEnable p.E.cur.f.mnem = true ∧
        p.E.cur.f.rnumb = destOfFields p.M.cur.f then p.M.cur.aluResult else p.E.cur.valB := by
  rw [opB, fwd, hazardDetect]
  refine if_congr ?_ rfl rfl
  simp only [Bool.and_eq_true, Bool.or_eq_true, beq_iff_eq]
  tauto

/-- Settles O46: the bypassed operands are those the ALU takes. -/
theorem executeBypassesFromMemoryStage : Obligations.ExecuteBypassesFromMemoryStage := by
  intro p A B isA isB
  rw [isA, isB, ← PipeState.opA_eq, ← PipeState.opB_eq, pipeStep_M_cur]

/-- Settles O47: Decode reads the register file that this cycle's commit leaves. -/
theorem decodeReadsSameCyclesCommit : Obligations.DecodeReadsSameCyclesCommit := by
  intro p v committed
  have read (r : RegNum) : RegFile.read (pipeStep p).reg r = v r := (pipeStep_reg_read p r).trans (committed r).symm
  rw [pipeStep_E_cur, read, read, read]
  rfl

/-! ### Fetch (R212 to R214) -/

theorem pcSelect_eq_of_mnemonic (m : Mnemonic) (seqPc aluResult memValue valC : Word) :
    pcSelect m seqPc aluResult memValue valC =
      if m = .call then valC else if m = .ret then memValue else if m = .jump ∨ m = .branch then aluResult else seqPc := by
  cases m <;> rfl

/-- Settles O48: the selection by mnemonic, and the fetch without a bubble. -/
theorem fetchReadsAtSelectedPc : Obligations.FetchReadsAtSelectedPc := fun _ =>
  ⟨pcSelect_eq_of_mnemonic _ _ _ _ _, pipeStep_of_no_bubble⟩

/-- Settles O49: the bubble is no `unassigned`, so the clock after it fetches, at the pc that was kept. -/
theorem unassignedMakesOneBubble : Obligations.UnassignedMakesOneBubble := by
  intro p bubble
  obtain ⟨decodeHoldsBubble, pcKept⟩ := pipeStep_of_bubble bubble
  refine ⟨decodeHoldsBubble, pcKept, fun noTransfer => ?_⟩
  have selected : (pipeStep p).sel = p.sel := by
    rw [PipeState.sel_of_not_transfer (by rwa [pipeStep_W_cur]), pcKept]
  have noBubble : (pipeStep p).D.cur.f.mnem ≠ .unassigned := by
    rw [decodeHoldsBubble, bubbleFields_mnem]
    decide
  obtain ⟨fetched, advanced⟩ := pipeStep_of_no_bubble noBubble
  rw [fetched, advanced, selected]
  exact ⟨rfl, rfl⟩

/-- Settles O50: the fields of each stage after a clock, and the fetch with and without a bubble. -/
theorem noStallFreezeOrSquash : Obligations.NoStallFreezeOrSquash := by
  intro p
  refine ⟨by rw [pipeStep_E_cur], by rw [pipeStep_M_cur], by rw [pipeStep_W_cur], PipeState.sel_of_not_transfer,
    fun noBubble => (pipeStep_of_no_bubble noBubble).2, fun bubble => ?_⟩
  obtain ⟨decodeHoldsBubble, pcKept⟩ := pipeStep_of_bubble bubble
  rw [decodeHoldsBubble]
  exact ⟨pcKept, bubbleFields_mnem⟩

/-- Settles O52: the stored cell is the one Fetch reads. -/
theorem fetchSeesSameCyclesStore : Obligations.FetchSeesSameCyclesStore := by
  intro p stored noBubble
  obtain ⟨fetched, -⟩ := pipeStep_of_no_bubble noBubble
  refine ⟨fun m => ?_, fun m => ?_, fun m => ?_⟩ <;>
    · rw [fetched, pipeStep_mem_read, storedWord_eq, m, stored]
      simp

/-! ### What a clock depends on (R31, R230) -/

/-- A latch whose halves are equal is given by its current half. -/
theorem Latch.eq_of_cur {α : Type} {l l' : Latch α} (cur : l.cur = l'.cur) (swapped : l.next = l.cur)
    (swapped' : l'.next = l'.cur) : l = l' := by
  rw [Latch.mk.injEq]
  exact ⟨cur, swapped.trans (cur.trans swapped'.symm)⟩

/-- The swap makes every pair equal, so two clocks that agree on the current halves agree. -/
theorem pipeStep_ext {p q : PipeState} (reg : (pipeStep p).reg = (pipeStep q).reg)
    (mem : (pipeStep p).mem = (pipeStep q).mem) (F : (pipeStep p).F.cur = (pipeStep q).F.cur)
    (D : (pipeStep p).D.cur = (pipeStep q).D.cur) (E : (pipeStep p).E.cur = (pipeStep q).E.cur)
    (M : (pipeStep p).M.cur = (pipeStep q).M.cur) (W : (pipeStep p).W.cur = (pipeStep q).W.cur) :
    pipeStep p = pipeStep q := by
  obtain ⟨pF, pD, pE, pM, pW⟩ := pipeStep_next p
  obtain ⟨qF, qD, qE, qM, qW⟩ := pipeStep_next q
  rw [PipeState.mk.injEq]
  exact ⟨reg, mem, Latch.eq_of_cur F pF qF, Latch.eq_of_cur D pD qD, Latch.eq_of_cur E pE qE,
    Latch.eq_of_cur M pM qM, Latch.eq_of_cur W pW qW⟩

/-- A clock is a function of the registers, the Memory stage's access, the residents of `F`, `D`, `E` and `W`, and the
fields and results that Memory hands on. -/
theorem pipeStep_congr {p q : PipeState} (reg : p.reg = q.reg) (access : memoryStageAccess p = memoryStageAccess q)
    (F : p.F.cur = q.F.cur) (D : p.D.cur = q.D.cur) (E : p.E.cur = q.E.cur) (W : p.W.cur = q.W.cur)
    (fields : p.M.cur.f = q.M.cur.f) (aluResult : p.M.cur.aluResult = q.M.cur.aluResult)
    (valC : p.M.cur.valC = q.M.cur.valC) : pipeStep p = pipeStep q := by
  have sameReg : (pipeStep p).reg = (pipeStep q).reg := by rw [pipeStep_reg, pipeStep_reg, reg, W]
  have sameMem : (pipeStep p).mem = (pipeStep q).mem := by rw [pipeStep_mem, pipeStep_mem, access]
  have sameSel : p.sel = q.sel := by rw [PipeState.sel, PipeState.sel, F, W]
  refine pipeStep_ext sameReg sameMem ?_ ?_ ?_ ?_ ?_
  · rw [pipeStep_F_cur, pipeStep_F_cur, D, sameSel]
  · rw [pipeStep_D_cur, pipeStep_D_cur, D, sameSel, sameMem]
  · rw [pipeStep_E_cur, pipeStep_E_cur, D, sameReg]
  · rw [pipeStep_M_cur, pipeStep_M_cur, PipeState.opA_eq, PipeState.opA_eq, PipeState.opB_eq, PipeState.opB_eq, E,
      fields, aluResult]
  · rw [pipeStep_W_cur, pipeStep_W_cur, fields, aluResult, valC, access]

/-- Settles O51: every part of the next state is written from current halves. -/
theorem clockReadsOnlyCurrentHalves : Obligations.ClockReadsOnlyCurrentHalves := by
  refine fun p q => ⟨fun reg mem F D E M W => ?_, pipeStep_next p⟩
  have access : memoryStageAccess p = memoryStageAccess q := by rw [memoryStageAccess, memoryStageAccess, mem, M]
  exact pipeStep_congr reg access F D E W (by rw [M]) (by rw [M]) (by rw [M])

/-! ### Operands that are not used (R204) -/

/-- Settles O42: the mnemonics by the operands they use; each formula names no other. -/
theorem aluDependsOnUsedOperandsOnly : Obligations.AluDependsOnUsedOperandsOnly := by
  intro m A A' B B' C C' d P sameA sameB sameC
  cases m with
  | nop | unassigned => rfl
  | ldmem | ret | jump | pop | not | neg | cnot | popcount | bitrev =>
    obtain rfl := sameA rfl
    rfl
  | stmem | call | branch | push =>
    obtain rfl := sameA rfl
    obtain rfl := sameC rfl
    rfl
  | add | sub | mul | div | xor | and | or | shl | shr | lt | le =>
    obtain rfl := sameA rfl
    obtain rfl := sameB rfl
    rfl
  | cmove | cadd =>
    obtain rfl := sameA rfl
    obtain rfl := sameB rfl
    obtain rfl := sameC rfl
    rfl
  | immlow | immhigh =>
    obtain rfl := sameC rfl
    rfl

/-- A mnemonic that does not use `valA` accesses no memory. -/
theorem memoryAccessKind_of_not_usesA {m : Mnemonic} (unused : ¬usesA m = true) : memoryAccessKind m = .none := by
  cases m with
  | nop | unassigned | immlow | immhigh => rfl
  | _ => exact absurd rfl unused

/-- Without an access the Memory resident's `valA` is not seen: no other stage reads it. -/
theorem pipeStep_withMemoryValA {p : PipeState} (noAccess : memoryAccessKind p.M.cur.f.mnem = .none) (v : Word) :
    pipeStep (p.withMemoryValA v) = pipeStep p := by
  have access : memoryStageAccess (p.withMemoryValA v) = memoryStageAccess p := by
    simp [memoryStageAccess, memAccess, noAccess]
  exact pipeStep_congr rfl access rfl rfl rfl rfl rfl rfl rfl

/-- Settles O43: the ALU and, in the clock after, the Memory stage see the bypassed operand only where it is used. -/
theorem falsePositiveBypassChangesNothing : Obligations.FalsePositiveBypassChangesNothing := by
  intro p A B isA isB
  constructor
  · rw [pipeStep_M_cur]
    exact aluDependsOnUsedOperandsOnly _ _ _ _ _ _ _ _ _ (fun used => (isA.trans (if_pos used)).symm)
      (fun used => (isB.trans (if_pos used)).symm) fun _ => rfl
  · by_cases used : usesA p.E.cur.f.mnem = true
    · have sameValA : A = (pipeStep p).M.cur.valA := by rw [isA, if_pos used, pipeStep_M_cur]
      rw [sameValA]
      rfl
    · refine (pipeStep_withMemoryValA ?_ A).symm
      rw [pipeStep_M_cur]
      exact memoryAccessKind_of_not_usesA used

end Sys2Proof.Machine
end

section
/-! The reference run as a stream of slots (R350 to R355), each slot with the instruction it holds and the reference state
after it. Four empty slots stand before the first one: the bubbles that the pipeline holds at reset (R36), or in front of
an instruction in isolation. -/

namespace Sys2Proof.Safety

open Sys2Proof.Machine

/-! ### One reference step in parts (R250) -/

/-- The ALU result of the instruction at the reference pc. -/
def refResult (r : RefState) : Word :=
  alu (refFields r).mnem (RegFile.read r.reg (refFields r).rnuma) (RegFile.read r.reg (refFields r).rnumb)
    (RegFile.read r.reg (refFields r).rnumc) (refFields r).data (r.pc + 1)

/-- The data access of the instruction at the reference pc. -/
def refAccess (r : RefState) : Word × Memory :=
  memAccess (refFields r).mnem (refResult r) (RegFile.read r.reg (refFields r).rnuma)
    (RegFile.read r.reg (refFields r).rnumc) (r.pc + 1) r.mem

theorem refStep_reg (r : RefState) :
    (refStep r).reg =
      commitWB (refFields r).mnem (refFields r).rnumc (refFields r).rnuma (refResult r) (refAccess r).1 r.reg := rfl

theorem refStep_mem (r : RefState) : (refStep r).mem = (refAccess r).2 := rfl

theorem refStep_pc (r : RefState) :
    (refStep r).pc =
      pcSelect (refFields r).mnem (r.pc + 1) (refResult r) (refAccess r).1 (RegFile.read r.reg (refFields r).rnumc) := rfl

/-- An instruction without access and write-back that goes on sequentially only advances pc. -/
theorem refStep_of_idle {r : RefState} (idle : (refFields r).mnem = .nop ∨ (refFields r).mnem = .unassigned) :
    refStep r = { r with pc := r.pc + 1 } := by
  rw [RefState.mk.injEq, refStep_reg, refStep_mem, refStep_pc, refAccess]
  rcases idle with idle | idle <;> rw [idle] <;> exact ⟨rfl, rfl, rfl⟩

theorem refStep_pc_of_not_transfer {r : RefState} (noTransfer : isTransfer (refFields r).mnem = false) :
    (refStep r).pc = r.pc + 1 := by
  rw [refStep_pc, pcSelect, pcSource_of_not_transfer noTransfer]

/-! ### One slot -/

/-- The instruction a slot holds: a bubble or a shadow slot counts as `nop`. -/
def SlotState.fields (σ : SlotState) : Fields :=
  if σ.slot = .instr then refFields σ.ref else bubbleFields

/-- The reference state after a slot: only an instruction's slot steps. -/
def SlotState.after (σ : SlotState) : RefState :=
  if σ.slot = .instr then refStep σ.ref else σ.ref

theorem SlotState.fields_of_instr {σ : SlotState} (h : σ.slot = .instr) : σ.fields = refFields σ.ref := if_pos h

theorem SlotState.after_of_instr {σ : SlotState} (h : σ.slot = .instr) : σ.after = refStep σ.ref := if_pos h

theorem SlotState.fields_of_ne_instr {σ : SlotState} (h : σ.slot ≠ .instr) : σ.fields = bubbleFields := if_neg h

theorem SlotState.after_of_ne_instr {σ : SlotState} (h : σ.slot ≠ .instr) : σ.after = σ.ref := if_neg h

/-- Only an instruction's slot holds anything but `nop`. -/
theorem SlotState.instr_of_ne_nop {σ : SlotState} (active : σ.fields.mnem ≠ .nop) : σ.slot = .instr := by
  by_contra other
  exact active (by rw [fields_of_ne_instr other, bubbleFields_mnem])

/-- A slot that holds `nop` leaves registers and memory. -/
theorem SlotState.after_of_nop {σ : SlotState} (idle : σ.fields.mnem = .nop) :
    σ.after.reg = σ.ref.reg ∧ σ.after.mem = σ.ref.mem := by
  by_cases instr : σ.slot = .instr
  · rw [fields_of_instr instr] at idle
    rw [after_of_instr instr, refStep_of_idle (.inl idle)]
    exact ⟨rfl, rfl⟩
  · rw [after_of_ne_instr instr]
    exact ⟨rfl, rfl⟩

/-- A register that the slot's instruction does not write is kept. -/
theorem SlotState.after_reg_read_of_not_writesReg {σ : SlotState} {i : RegNum} (kept : writesReg σ.fields i = false) :
    RegFile.read σ.after.reg i = RegFile.read σ.ref.reg i := by
  by_cases instr : σ.slot = .instr
  · rw [fields_of_instr instr] at kept
    rw [after_of_instr instr, refStep_reg, commitWB_read_of_not_writesReg kept]
  · rw [after_of_ne_instr instr]

/-! ### The step from slot to slot -/

theorem slotStep_ref (σ : SlotState) : (slotStep σ).ref = σ.after := by
  obtain ⟨ref, slot, seq, steps, transfers, unassigneds⟩ := σ
  rcases slot with _ | _ | _ | _ <;> rfl

theorem slotStep_of_instr {σ : SlotState} (instr : σ.slot = .instr) :
    (slotStep σ).slot = slotAfter σ.fields.mnem ∧ (slotStep σ).seq = σ.ref.pc + 1 := by
  rw [SlotState.fields_of_instr instr, slotStep, instr]
  exact ⟨rfl, rfl⟩

theorem slotStep_of_bubble {σ : SlotState} (bubble : σ.slot = .bubble) :
    (slotStep σ).slot = .instr ∧ (slotStep σ).seq = σ.seq := by
  rw [slotStep, bubble]
  exact ⟨rfl, rfl⟩

theorem slotStep_of_shadow_zero {σ : SlotState} (shadow : σ.slot = .shadow 0) :
    (slotStep σ).slot = .instr ∧ (slotStep σ).seq = σ.seq + 1 := by
  rw [slotStep, shadow]
  exact ⟨rfl, rfl⟩

theorem slotStep_of_shadow_succ {σ : SlotState} {n : Nat} (shadow : σ.slot = .shadow (n + 1)) :
    (slotStep σ).slot = .shadow n ∧ (slotStep σ).seq = σ.seq + 1 := by
  rw [slotStep, shadow]
  exact ⟨rfl, rfl⟩

theorem slotStep_seq_of_shadow {σ : SlotState} {n : Nat} (shadow : σ.slot = .shadow n) :
    (slotStep σ).seq = σ.seq + 1 := by
  cases n with
  | zero => exact (slotStep_of_shadow_zero shadow).2
  | succ n => exact (slotStep_of_shadow_succ shadow).2

theorem slotAfter_of_transfer {m : Mnemonic} (transfer : isTransfer m = true) : slotAfter m = .shadow 2 := if_pos transfer

theorem slotAfter_of_not_transfer {m : Mnemonic} (noTransfer : isTransfer m = false) :
    slotAfter m = if m = .unassigned then .bubble else .instr := by
  rw [slotAfter, noTransfer]
  rfl

/-- Exactly an `unassigned` is followed by a bubble. -/
theorem slotStep_bubble_iff (σ : SlotState) : (slotStep σ).slot = .bubble ↔ σ.fields.mnem = .unassigned := by
  by_cases instr : σ.slot = .instr
  · rw [(slotStep_of_instr instr).1, slotAfter]
    by_cases unassigned : σ.fields.mnem = .unassigned
    · rw [unassigned]
      decide
    · rw [if_neg unassigned]
      split <;> simp [unassigned]
  · have idle : σ.fields.mnem = .nop := by rw [SlotState.fields_of_ne_instr instr, bubbleFields_mnem]
    rw [idle]
    obtain ⟨ref, slot, seq, steps, transfers, unassigneds⟩ := σ
    rcases slot with _ | _ | _ | _
    · exact absurd rfl instr
    all_goals exact ⟨nofun, nofun⟩

/-! ### The stream -/

/-- The first slot of a run from `r`. -/
def SlotState.startAt (r : RefState) : SlotState :=
  { ref := r, slot := .instr, seq := r.pc, steps := 0, transfers := 0, unassigneds := 0 }

/-- The slots of the run from `r`, with four empty ones before the first. -/
def slots (r : RefState) (j : Nat) : SlotState :=
  if j < 4 then { SlotState.startAt r with slot := .bubble } else slotStep^[j - 4] (SlotState.startAt r)

theorem slots_of_lt (r : RefState) {j : Nat} (before : j < 4) :
    slots r j = { SlotState.startAt r with slot := .bubble } := if_pos before

theorem slots_add_four (r : RefState) (k : Nat) : slots r (k + 4) = slotStep^[k] (SlotState.startAt r) := by
  rw [slots, if_neg (by omega), Nat.add_sub_cancel]

theorem slots_four (r : RefState) : slots r 4 = SlotState.startAt r := slots_add_four r 0

theorem slots_step (r : RefState) (k : Nat) : slots r (k + 5) = slotStep (slots r (k + 4)) := by
  rw [slots_add_four, slots_add_four, Function.iterate_succ_apply']

theorem slots_fields_of_lt (r : RefState) {j : Nat} (before : j < 4) : (slots r j).fields = bubbleFields := by
  rw [slots_of_lt r before]
  rfl

theorem slots_mnem_of_lt (r : RefState) {j : Nat} (before : j < 4) : (slots r j).fields.mnem = .nop := by
  rw [slots_fields_of_lt r before, bubbleFields_mnem]

theorem slots_ref_of_lt (r : RefState) {j : Nat} (before : j < 4) : (slots r j).ref = r := by
  rw [slots_of_lt r before]
  rfl

theorem slots_ref (r : RefState) (j : Nat) : (slots r j).ref = (slotStep^[j - 4] (SlotState.startAt r)).ref := by
  rcases Nat.lt_or_ge j 4 with before | started
  · rw [slots_ref_of_lt r before, Nat.sub_eq_zero_of_le (by omega)]
    rfl
  · rw [slots, if_neg (by omega)]

/-- Each slot's reference state is what the slot before it leaves. -/
theorem slots_ref_succ (r : RefState) (j : Nat) : (slots r (j + 1)).ref = (slots r j).after := by
  rcases Nat.lt_or_ge j 4 with before | started
  · rw [slots_ref, slots_of_lt r before, Nat.sub_eq_zero_of_le (by omega)]
    rfl
  · obtain ⟨k, rfl⟩ := Nat.exists_eq_add_of_le' started
    rw [slots_step, slotStep_ref]

/-! ### Transfers and their shadows (R350, R353) -/

/-- Whether slot `j` holds a control transfer. -/
def transferAt (r : RefState) (j : Nat) : Bool := isTransfer (slots r j).fields.mnem

theorem transferAt_eq_false_of_lt (r : RefState) {j : Nat} (before : j < 4) : transferAt r j = false := by
  rw [transferAt, slots_mnem_of_lt r before]
  rfl

/-- What the coming slot says of the address that the sequential fetch reads and of the transfer it comes from. -/
def SlotShape (r : RefState) (k : Nat) : Prop :=
  match (slots r (k + 4)).slot with
  | .instr => transferAt r k = true ∨ (slots r (k + 4)).seq = (slots r (k + 4)).ref.pc
  | .bubble => (slots r (k + 4)).seq = (slots r (k + 4)).ref.pc
  | .shadow n => n ≤ 2 ∧ transferAt r (k + 1 + n) = true

theorem slotShape_of_instr {r : RefState} {k : Nat} (instr : (slots r (k + 4)).slot = .instr) :
    SlotShape r k ↔ transferAt r k = true ∨ (slots r (k + 4)).seq = (slots r (k + 4)).ref.pc := by
  rw [SlotShape, instr]

theorem slotShape_of_bubble {r : RefState} {k : Nat} (bubble : (slots r (k + 4)).slot = .bubble) :
    SlotShape r k ↔ (slots r (k + 4)).seq = (slots r (k + 4)).ref.pc := by
  rw [SlotShape, bubble]

theorem slotShape_of_shadow {r : RefState} {k n : Nat} (shadow : (slots r (k + 4)).slot = .shadow n) :
    SlotShape r k ↔ n ≤ 2 ∧ transferAt r (k + 1 + n) = true := by
  rw [SlotShape, shadow]

/-- Every slot has that shape, by induction along the run. -/
theorem slotShape (r : RefState) (k : Nat) : SlotShape r k := by
  induction k with
  | zero =>
    rw [slotShape_of_instr (by rw [slots_four]; rfl), slots_four]
    exact .inr rfl
  | succ k ih =>
    have next := slots_step r k
    have nextRef := slots_ref_succ r (k + 4)
    match slot : (slots r (k + 4)).slot with
    | .instr =>
      obtain ⟨nextSlot, nextSeq⟩ := slotStep_of_instr slot
      rw [← next] at nextSlot nextSeq
      rw [SlotState.after_of_instr slot] at nextRef
      by_cases transfer : transferAt r (k + 4) = true
      · exact (slotShape_of_shadow (nextSlot.trans (slotAfter_of_transfer transfer))).2 ⟨le_refl 2, transfer⟩
      · rw [transferAt, Bool.not_eq_true] at transfer
        have sequential : (slots r (k + 5)).seq = (slots r (k + 5)).ref.pc := by
          rw [SlotState.fields_of_instr slot] at transfer
          rw [nextSeq, nextRef, refStep_pc_of_not_transfer transfer]
        rw [slotAfter_of_not_transfer transfer] at nextSlot
        split at nextSlot
        · exact (slotShape_of_bubble nextSlot).2 sequential
        · exact (slotShape_of_instr nextSlot).2 (.inr sequential)
    | .bubble =>
      obtain ⟨nextSlot, nextSeq⟩ := slotStep_of_bubble slot
      rw [← next] at nextSlot nextSeq
      rw [SlotState.after_of_ne_instr (by rw [slot]; nofun)] at nextRef
      exact (slotShape_of_instr nextSlot).2 (.inr (by rw [nextSeq, nextRef, (slotShape_of_bubble slot).1 ih]))
    | .shadow 0 =>
      obtain ⟨nextSlot, -⟩ := slotStep_of_shadow_zero slot
      rw [← next] at nextSlot
      exact (slotShape_of_instr nextSlot).2 (.inl ((slotShape_of_shadow slot).1 ih).2)
    | .shadow (n + 1) =>
      obtain ⟨nextSlot, -⟩ := slotStep_of_shadow_succ slot
      rw [← next] at nextSlot
      obtain ⟨bound, transfer⟩ := (slotShape_of_shadow slot).1 ih
      rw [show k + 1 + (n + 1) = k + 1 + 1 + n by omega] at transfer
      exact (slotShape_of_shadow nextSlot).2 ⟨by omega, transfer⟩

/-- Three shadow slots after a transfer the coming slot is the instruction at its target. -/
theorem instr_of_transferAt {r : RefState} {k : Nat} (transfer : transferAt r k = true) :
    (slots r (k + 4)).slot = .instr ∧ (slots r (k + 4)).ref = (slots r k).after := by
  have started : 4 ≤ k := by
    by_contra before
    rw [transferAt_eq_false_of_lt r (by omega)] at transfer
    nomatch transfer
  obtain ⟨k, rfl⟩ := Nat.exists_eq_add_of_le' started
  have instr : (slots r (k + 4)).slot = .instr := SlotState.instr_of_ne_nop fun idle => by
    rw [transferAt, idle] at transfer
    nomatch transfer
  have shadow₂ := (slotStep_of_instr instr).1.trans (slotAfter_of_transfer transfer)
  rw [← slots_step] at shadow₂
  have shadow₁ := (slotStep_of_shadow_succ shadow₂).1
  rw [← slots_step r (k + 1)] at shadow₁
  have shadow₀ := (slotStep_of_shadow_succ shadow₁).1
  rw [← slots_step r (k + 2)] at shadow₀
  have target := (slotStep_of_shadow_zero shadow₀).1
  rw [← slots_step r (k + 3)] at target
  refine ⟨target, ?_⟩
  rw [slots_ref_succ r (k + 7), SlotState.after_of_ne_instr (by rw [shadow₀]; nofun), slots_ref_succ r (k + 6),
    SlotState.after_of_ne_instr (by rw [shadow₁]; nofun), slots_ref_succ r (k + 5),
    SlotState.after_of_ne_instr (by rw [shadow₂]; nofun), slots_ref_succ r (k + 4)]

/-- The address the coming slot's fetch reads. -/
def SlotState.fetchAddress (σ : SlotState) : Word := if σ.slot = .instr then σ.ref.pc else σ.seq

/-- The selected pc reaches the coming slot's address: four slots after a transfer its target, else the sequential one. -/
theorem fetchAddress_eq (r : RefState) (k : Nat) :
    (if transferAt r k = true then (slots r k).after.pc else (slots r (k + 4)).seq) = (slots r (k + 4)).fetchAddress := by
  rw [SlotState.fetchAddress]
  by_cases transfer : transferAt r k = true
  · obtain ⟨instr, target⟩ := instr_of_transferAt transfer
    rw [if_pos transfer, if_pos instr, target]
  · rw [if_neg transfer]
    split
    case isTrue instr => exact ((slotShape_of_instr instr).1 (slotShape r k)).resolve_left transfer
    case isFalse _ => rfl

/-- The coming slot is a bubble exactly when an `unassigned` stands before it. -/
theorem slots_bubble_iff (r : RefState) (k : Nat) :
    (slots r (k + 4)).slot = .bubble ↔ (slots r (k + 3)).fields.mnem = .unassigned := by
  cases k with
  | zero =>
    rw [slots_four, slots_mnem_of_lt r (by omega)]
    exact ⟨nofun, nofun⟩
  | succ k =>
    rw [slots_step]
    exact slotStep_bubble_iff _

end Sys2Proof.Safety
end

section
/-! The pipeline follows the slots: before clock `k` the instructions in WriteBack, Memory, Execute and Decode are those
of slots `k` to `k + 3` of the stream, and a clock moves each one on. A slot that holds `nop` may be filled by any other
`nop`: it has no effect in either model. -/

namespace Sys2Proof.Safety

open Sys2Proof.Machine

/-! ### What the registers of a stage hold of a slot's instruction -/

/-- Decode holds the slot's instruction. -/
structure InDecode (d : DReg) (σ : SlotState) : Prop where
  mnem : d.f.mnem = σ.fields.mnem
  held : σ.fields.mnem ≠ .nop → d = { f := σ.fields, valP := σ.ref.pc + 1 }

/-- Execute holds it with the operands of the register file `x`. -/
structure InExecute (e : EReg) (x : RegFile) (σ : SlotState) : Prop where
  mnem : e.f.mnem = σ.fields.mnem
  held : σ.fields.mnem ≠ .nop →
    e = { f := σ.fields
          valA := RegFile.read x σ.fields.rnuma
          valB := RegFile.read x σ.fields.rnumb
          valC := RegFile.read x σ.fields.rnumc
          data := σ.fields.data
          valP := σ.ref.pc + 1 }

/-- Memory holds it with its ALU result, and with the operands it still uses. -/
structure InMemory (m : MReg) (σ : SlotState) : Prop where
  mnem : m.f.mnem = σ.fields.mnem
  fields : σ.fields.mnem ≠ .nop → m.f = σ.fields
  aluResult : σ.fields.mnem ≠ .nop → m.aluResult = refResult σ.ref
  valP : σ.fields.mnem ≠ .nop → m.valP = σ.ref.pc + 1
  valA : σ.fields.mnem ≠ .nop → usesA σ.fields.mnem = true → m.valA = RegFile.read σ.ref.reg σ.fields.rnuma
  valC : σ.fields.mnem ≠ .nop → usesC σ.fields.mnem = true → m.valC = RegFile.read σ.ref.reg σ.fields.rnumc

/-- WriteBack holds it with the results of the ALU and of the data access. -/
structure InWriteBack (w : WReg) (σ : SlotState) : Prop where
  mnem : w.f.mnem = σ.fields.mnem
  fields : σ.fields.mnem ≠ .nop → w.f = σ.fields
  aluResult : σ.fields.mnem ≠ .nop → w.aluResult = refResult σ.ref
  memValue : σ.fields.mnem ≠ .nop → w.memValue = (refAccess σ.ref).1
  valC : σ.fields.mnem ≠ .nop → usesC σ.fields.mnem = true → w.valC = RegFile.read σ.ref.reg σ.fields.rnumc

section
variable {σ : SlotState} (idle : σ.fields.mnem = .nop)
include idle

/-! Any `nop` will do for a slot that holds `nop`. -/

theorem inDecode_of_nop {d : DReg} (nop : d.f.mnem = .nop) : InDecode d σ := ⟨nop.trans idle.symm, (absurd idle ·)⟩

theorem inExecute_of_nop {e : EReg} (nop : e.f.mnem = .nop) (x : RegFile) : InExecute e x σ :=
  ⟨nop.trans idle.symm, (absurd idle ·)⟩

theorem inMemory_of_nop {m : MReg} (nop : m.f.mnem = .nop) : InMemory m σ :=
  ⟨nop.trans idle.symm, (absurd idle ·), (absurd idle ·), (absurd idle ·), (absurd idle ·), (absurd idle ·)⟩

theorem inWriteBack_of_nop {w : WReg} (nop : w.f.mnem = .nop) : InWriteBack w σ :=
  ⟨nop.trans idle.symm, (absurd idle ·), (absurd idle ·), (absurd idle ·), (absurd idle ·)⟩

end

/-- An instruction that does something is the one at the slot's reference pc. -/
theorem SlotState.active {σ : SlotState} (active : σ.fields.mnem ≠ .nop) :
    σ.fields = refFields σ.ref ∧ σ.after = refStep σ.ref :=
  ⟨fields_of_instr (instr_of_ne_nop active), after_of_instr (instr_of_ne_nop active)⟩

/-! ### WriteBack (R129, R132) -/

/-- The commit of a slot's instruction leaves the registers that the slot leaves. -/
theorem InWriteBack.commit {w : WReg} {σ : SlotState} (h : InWriteBack w σ) :
    commitWB w.f.mnem w.f.rnumc w.f.rnuma w.aluResult w.memValue σ.ref.reg = σ.after.reg := by
  by_cases idle : σ.fields.mnem = .nop
  · rw [h.mnem, idle, (SlotState.after_of_nop idle).1]
    rfl
  · obtain ⟨sameFields, steps⟩ := SlotState.active idle
    rw [h.fields idle, h.aluResult idle, h.memValue idle, sameFields, steps, refStep_reg]

/-- The pc selection sees `valC` of a call only, which uses it. -/
theorem pcSelect_of_transfer {m : Mnemonic} (transfer : isTransfer m = true) {v v' : Word}
    (sameC : usesC m = true → v = v') (seqPc seqPc' aluResult memValue : Word) :
    pcSelect m seqPc aluResult memValue v = pcSelect m seqPc' aluResult memValue v' := by
  cases m with
  | call => exact sameC rfl
  | ret | jump | branch => rfl
  | _ => nomatch transfer

/-- A transfer selects the slot's next pc, any other instruction the sequential one. -/
theorem InWriteBack.select {w : WReg} {σ : SlotState} (h : InWriteBack w σ) (seqPc : Word) :
    pcSelect w.f.mnem seqPc w.aluResult w.memValue w.valC =
      if isTransfer σ.fields.mnem = true then σ.after.pc else seqPc := by
  split
  case isTrue transfer =>
    have active : σ.fields.mnem ≠ .nop := fun idle => by rw [idle] at transfer; nomatch transfer
    obtain ⟨sameFields, steps⟩ := SlotState.active active
    rw [steps, refStep_pc, ← sameFields, h.fields active, h.aluResult active, h.memValue active]
    exact pcSelect_of_transfer transfer (h.valC active) _ _ _ _
  case isFalse noTransfer =>
    rw [h.mnem, pcSelect, pcSource_of_not_transfer (Bool.not_eq_true _ ▸ noTransfer)]

/-! ### Memory (R131) -/

/-- A data access sees `valA` and `valC` only where the mnemonic uses them. -/
theorem memAccess_congr (m : Mnemonic) {A A' C C' : Word} (sameA : usesA m = true → A = A')
    (sameC : usesC m = true → C = C') (aluResult P : Word) (mem : Memory) :
    memAccess m aluResult A C P mem = memAccess m aluResult A' C' P mem := by
  cases m with
  | nop | unassigned | immlow | immhigh => rfl
  | push =>
    obtain rfl := sameC rfl
    rfl
  | _ =>
    obtain rfl := sameA rfl
    rfl

/-- The access of a slot's instruction leaves the memory that the slot leaves. -/
theorem InMemory.access_mem {m : MReg} {σ : SlotState} (h : InMemory m σ) :
    (memAccess m.f.mnem m.aluResult m.valA m.valC m.valP σ.ref.mem).2 = σ.after.mem := by
  by_cases idle : σ.fields.mnem = .nop
  · rw [h.mnem, idle, (SlotState.after_of_nop idle).2]
    rfl
  · obtain ⟨sameFields, steps⟩ := SlotState.active idle
    rw [steps, refStep_mem, refAccess, ← sameFields, h.mnem, h.aluResult idle, h.valP idle,
      memAccess_congr _ (h.valA idle) (h.valC idle)]

/-- What Memory hands on is what WriteBack holds of the slot. -/
theorem InMemory.inWriteBack {m : MReg} {σ : SlotState} (h : InMemory m σ) :
    InWriteBack
      { f := m.f
        aluResult := m.aluResult
        memValue := (memAccess m.f.mnem m.aluResult m.valA m.valC m.valP σ.ref.mem).1
        valC := m.valC } σ where
  mnem := h.mnem
  fields := h.fields
  aluResult := h.aluResult
  memValue active := by
    obtain ⟨sameFields, -⟩ := SlotState.active active
    rw [refAccess, ← sameFields, h.mnem, h.aluResult active, h.valP active,
      memAccess_congr _ (h.valA active) (h.valC active)]
  valC := h.valC

/-! ### Execute: the register-use rule makes every used operand current (R345 to R349) -/

/-- A covered write is in the ALU result: it is what the register holds after the slot. -/
theorem SlotState.after_reg_read_of_aluWriteBack {σ : SlotState} {i : RegNum}
    (enabled : aluWriteBackEnable σ.fields.mnem = true) (named : i = destOfFields σ.fields) :
    RegFile.read σ.after.reg i = refResult σ.ref := by
  have active : σ.fields.mnem ≠ .nop := fun idle => by rw [idle] at enabled; nomatch enabled
  obtain ⟨sameFields, steps⟩ := SlotState.active active
  rw [sameFields] at enabled named
  rw [steps, refStep_reg, commitWB_read]
  exact if_pos ⟨enabled, named⟩

theorem writesReg_of_aluWriteBack {f : Fields} {i : RegNum} (enabled : aluWriteBackEnable f.mnem = true)
    (named : i = destOfFields f) : writesReg f i = true := by
  rw [writesReg, enabled, ← named, beq_self_eq_true, Bool.and_self, Bool.or_true]

/-- A register that neither of the two slots before writes is still what it was two slots ago. -/
theorem reg_read_of_unwritten {σ₂ σ₁ σ : SlotState} (ref₁ : σ₁.ref = σ₂.after) (ref : σ.ref = σ₁.after) {i : RegNum}
    (kept₂ : writesReg σ₂.fields i = false) (kept₁ : writesReg σ₁.fields i = false) :
    RegFile.read σ.ref.reg i = RegFile.read σ₂.ref.reg i := by
  rw [ref, SlotState.after_reg_read_of_not_writesReg kept₁, ref₁, SlotState.after_reg_read_of_not_writesReg kept₂]

/-- `useOk` in its two cases: a covered write just before, or no write in the two slots before. -/
theorem useOk_cases {bypassed : Bool} {p₂ p₁ q : Fields} {i : RegNum} (ok : useOk bypassed p₂ p₁ q i = true) :
    (bypassed = true ∧ aluWriteBackEnable p₁.mnem = true ∧ aluWriteBackEnable q.mnem = true ∧ i = destOfFields p₁) ∨
      (writesReg p₁ i = false ∧ writesReg p₂ i = false) := by
  rw [useOk] at ok
  split at ok
  case isTrue _ =>
    simp only [covers, Bool.and_eq_true, beq_iff_eq] at ok
    obtain ⟨bypass, ⟨producer, consumer⟩, named⟩ := ok
    exact .inl ⟨bypass, producer, consumer, named.symm⟩
  case isFalse kept₁ => exact .inr ⟨Bool.not_eq_true _ ▸ kept₁, (Bool.not_eq_true' _).mp ok⟩

/-- The bypass gives a used operand the value that its register holds in the reference. -/
theorem bypassed_operand {m : MReg} {x : RegFile} {σ₂ σ₁ σ : SlotState} (memory : InMemory m σ₁) (file : x = σ₂.ref.reg)
    (ref₁ : σ₁.ref = σ₂.after) (ref : σ.ref = σ₁.after) {i : RegNum}
    (ok : useOk true σ₂.fields σ₁.fields σ.fields i = true) :
    (if aluWriteBackEnable m.f.mnem = true ∧ aluWriteBackEnable σ.fields.mnem = true ∧ i = destOfFields m.f then
      m.aluResult else RegFile.read x i) = RegFile.read σ.ref.reg i := by
  rcases useOk_cases ok with ⟨-, producer, consumer, named⟩ | ⟨kept₁, kept₂⟩
  · have active : σ₁.fields.mnem ≠ .nop := fun idle => by rw [idle] at producer; nomatch producer
    rw [memory.fields active, if_pos ⟨producer, consumer, named⟩, memory.aluResult active, ref,
      SlotState.after_reg_read_of_aluWriteBack producer named]
  · rw [if_neg, file, reg_read_of_unwritten ref₁ ref kept₂ kept₁]
    rintro ⟨producer, -, named⟩
    rw [memory.mnem] at producer
    have active : σ₁.fields.mnem ≠ .nop := fun idle => by rw [idle] at producer; nomatch producer
    rw [memory.fields active] at named
    rw [writesReg_of_aluWriteBack producer named] at kept₁
    nomatch kept₁

/-- The register-use rule for one instruction, operand by operand. -/
theorem usesOk_cases {p₂ p₁ q : Fields} (ok : usesOk p₂ p₁ q = true) :
    (usesA q.mnem = true → useOk true p₂ p₁ q q.rnuma = true) ∧
      (usesB q.mnem = true → useOk true p₂ p₁ q q.rnumb = true) ∧
        (usesC q.mnem = true → useOk false p₂ p₁ q q.rnumc = true) := by
  simp only [usesOk, Bool.and_eq_true, Bool.or_eq_true, Bool.not_eq_true'] at ok
  obtain ⟨⟨okA, okB⟩, okC⟩ := ok
  exact ⟨fun used => okA.resolve_left (by simp [used]), fun used => okB.resolve_left (by simp [used]),
    fun used => okC.resolve_left (by simp [used])⟩

/-- A clock takes the instruction in Execute to Memory with the reference's ALU result. -/
theorem inMemory_pipeStep {p : PipeState} {σ₂ σ₁ σ : SlotState} (execute : InExecute p.E.cur p.reg σ)
    (memory : InMemory p.M.cur σ₁) (file : p.reg = σ₂.ref.reg) (ref₁ : σ₁.ref = σ₂.after) (ref : σ.ref = σ₁.after)
    (ok : usesOk σ₂.fields σ₁.fields σ.fields = true) : InMemory (pipeStep p).M.cur σ := by
  obtain ⟨okA, okB, okC⟩ := usesOk_cases ok
  have valA (active : σ.fields.mnem ≠ .nop) (used : usesA σ.fields.mnem = true) :
      p.opA = RegFile.read σ.ref.reg σ.fields.rnuma := by
    rw [PipeState.opA_eq, execute.held active]
    exact bypassed_operand memory file ref₁ ref (okA used)
  have valB (active : σ.fields.mnem ≠ .nop) (used : usesB σ.fields.mnem = true) :
      p.opB = RegFile.read σ.ref.reg σ.fields.rnumb := by
    rw [PipeState.opB_eq, execute.held active]
    exact bypassed_operand memory file ref₁ ref (okB used)
  have valC (active : σ.fields.mnem ≠ .nop) (used : usesC σ.fields.mnem = true) :
      RegFile.read p.reg σ.fields.rnumc = RegFile.read σ.ref.reg σ.fields.rnumc := by
    rcases useOk_cases (okC used) with ⟨bypass, -⟩ | ⟨kept₁, kept₂⟩
    · nomatch bypass
    · rw [file, reg_read_of_unwritten ref₁ ref kept₂ kept₁]
  rw [pipeStep_M_cur]
  refine ⟨execute.mnem, fun active => ?_, fun active => ?_, fun active => ?_, valA, fun active => ?_⟩
  · rw [execute.held active]
  · obtain ⟨sameFields, -⟩ := SlotState.active active
    rw [execute.held active, refResult, ← sameFields]
    exact aluDependsOnUsedOperandsOnly _ _ _ _ _ _ _ _ _ (valA active) (valB active) (valC active)
  · rw [execute.held active]
  · rw [execute.held active]
    exact valC active

/-! ### The pipeline follows the stream -/

/-- Before clock `k` the pipeline is the stream's: registers as slot `k` finds them, memory as slot `k + 1` does, the
four stages hold slots `k` to `k + 3`, and `F.pc` is the next sequential address. -/
structure Tracks (r : RefState) (k : Nat) (p : PipeState) : Prop where
  reg : p.reg = (slots r k).ref.reg
  mem : p.mem = (slots r (k + 1)).ref.mem
  writeBack : InWriteBack p.W.cur (slots r k)
  memory : InMemory p.M.cur (slots r (k + 1))
  execute : InExecute p.E.cur p.reg (slots r (k + 2))
  decode : InDecode p.D.cur (slots r (k + 3))
  pc : p.F.cur.pc = (slots r (k + 4)).seq

/-- The word in the memory that the fetch of slot `k` (stream index `k + 4`) sees. -/
def slotFetch (r : RefState) (k : Nat) : Fields :=
  fieldsOf (Memory.read (slots r (k + 2)).ref.mem (slots r (k + 4)).fetchAddress)

/-- What the clock asks of the program: the instruction in Execute meets the register-use rule, and the fetched word is
the coming slot's, up to one `nop` for another. -/
structure SlotOk (r : RefState) (k : Nat) : Prop where
  uses : usesOk (slots r k).fields (slots r (k + 1)).fields (slots r (k + 2)).fields = true
  fetched : (slots r (k + 4)).slot ≠ .bubble → (slotFetch r k).mnem = (slots r (k + 4)).fields.mnem
  active : (slots r (k + 4)).fields.mnem ≠ .nop → slotFetch r k = (slots r (k + 4)).fields

variable {r : RefState} {k : Nat} {p : PipeState}

theorem Tracks.pipeStep_reg (h : Tracks r k p) : (pipeStep p).reg = (slots r (k + 1)).ref.reg := by
  rw [Machine.pipeStep_reg, h.reg, h.writeBack.commit, slots_ref_succ]

theorem Tracks.pipeStep_mem (h : Tracks r k p) : (pipeStep p).mem = (slots r (k + 2)).ref.mem := by
  rw [Machine.pipeStep_mem, memoryStageAccess, h.mem, h.memory.access_mem, slots_ref_succ]

/-- The selected pc is the coming slot's fetch address. -/
theorem Tracks.sel (h : Tracks r k p) : p.sel = (slots r (k + 4)).fetchAddress := by
  rw [PipeState.sel, h.writeBack.select, h.pc]
  exact fetchAddress_eq r k

/-- Under a bubble slot the clock sends the bubble on and holds the pc. -/
theorem Tracks.pipeStep_of_bubble (h : Tracks r k p) (bubble : (slots r (k + 4)).slot = .bubble) :
    (pipeStep p).D.cur.f = bubbleFields ∧ (pipeStep p).F.cur.pc = (slots r (k + 4)).fetchAddress := by
  have unassigned := h.decode.mnem.trans ((slots_bubble_iff r k).1 bubble)
  obtain ⟨decodeHolds, pcKept⟩ := Machine.pipeStep_of_bubble unassigned
  rw [decodeHolds, pcKept, h.sel]
  exact ⟨rfl, rfl⟩

/-- In any other slot the clock fetches at the slot's address and advances. -/
theorem Tracks.pipeStep_of_fetch (h : Tracks r k p) (fetches : (slots r (k + 4)).slot ≠ .bubble) :
    (pipeStep p).D.cur = { f := slotFetch r k, valP := (slots r (k + 4)).fetchAddress + 1 } ∧
      (pipeStep p).F.cur.pc = (slots r (k + 4)).fetchAddress + 1 := by
  have noBubble : p.D.cur.f.mnem ≠ .unassigned := by
    rw [h.decode.mnem]
    exact fetches ∘ (slots_bubble_iff r k).2
  obtain ⟨fetched, advanced⟩ := pipeStep_of_no_bubble noBubble
  rw [fetched, advanced, h.sel, h.pipeStep_mem]
  exact ⟨rfl, rfl⟩

/-- The sequential address after a slot: held by a bubble, else the one after the slot's fetch. -/
theorem slots_succ_seq (r : RefState) (k : Nat) :
    (slots r (k + 5)).seq =
      if (slots r (k + 4)).slot = .bubble then (slots r (k + 4)).fetchAddress
      else (slots r (k + 4)).fetchAddress + 1 := by
  rw [slots_step, SlotState.fetchAddress]
  match slot : (slots r (k + 4)).slot with
  | .instr => exact (slotStep_of_instr slot).2
  | .bubble => exact (slotStep_of_bubble slot).2
  | .shadow n => exact slotStep_seq_of_shadow slot

/-- A clock keeps the pipeline on the stream, one slot on. -/
theorem Tracks.pipeStep (h : Tracks r k p) (ok : SlotOk r k) : Tracks r (k + 1) (pipeStep p) where
  reg := h.pipeStep_reg
  mem := h.pipeStep_mem
  writeBack := by
    rw [pipeStep_W_cur, memoryStageAccess, h.mem]
    exact h.memory.inWriteBack
  memory := inMemory_pipeStep h.execute h.memory h.reg (slots_ref_succ r k) (slots_ref_succ r (k + 1)) ok.uses
  execute := by
    rw [pipeStep_E_cur]
    exact ⟨h.decode.mnem, fun active => by rw [h.decode.held active]⟩
  decode := by
    by_cases bubble : (slots r (k + 4)).slot = .bubble
    · have idle : (slots r (k + 4)).fields = bubbleFields := SlotState.fields_of_ne_instr (by rw [bubble]; nofun)
      rw [show k + 1 + 3 = k + 4 from rfl]
      exact ⟨by rw [(h.pipeStep_of_bubble bubble).1, idle], fun active => absurd (by rw [idle, bubbleFields_mnem]) active⟩
    · obtain ⟨fetched, -⟩ := h.pipeStep_of_fetch bubble
      refine ⟨?_, fun active => ?_⟩
      · rw [fetched]
        exact ok.fetched bubble
      · have address : (slots r (k + 4)).fetchAddress = (slots r (k + 4)).ref.pc :=
          if_pos (SlotState.instr_of_ne_nop active)
        rw [fetched, ok.active active, address]
  pc := by
    rw [show k + 1 + 4 = k + 5 from rfl, slots_succ_seq]
    by_cases bubble : (slots r (k + 4)).slot = .bubble
    · rw [if_pos bubble, (h.pipeStep_of_bubble bubble).2]
    · rw [if_neg bubble, (h.pipeStep_of_fetch bubble).2]

/-- Along slots that are all in order, the pipeline stays on the stream. -/
theorem Tracks.iterate (h : Tracks r k p) (n : Nat) (ok : ∀ j < n, SlotOk r (k + j)) :
    Tracks r (k + n) (Machine.pipeStep^[n] p) := by
  induction n with
  | zero => exact h
  | succ n ih =>
    rw [Function.iterate_succ_apply']
    exact (ih fun j below => ok j (by omega)).pipeStep (ok n (by omega))

end Sys2Proof.Safety
end

section
/-! One instruction in isolation, and programs padded by `nop`s (R345 to R353): the block of the reference is the first
four slots of its stream, and a padded block keeps every rule of the slots. -/

namespace Sys2Proof.Safety

open Sys2Proof.Machine

/-! ### The register-use rule without a writer nearby -/

/-- `nop` uses no register. -/
theorem usesOk_of_nop (p₂ p₁ : Fields) {q : Fields} (idle : q.mnem = .nop) : usesOk p₂ p₁ q = true := by
  rw [usesOk, idle]
  rfl

theorem writesReg_of_nop {f : Fields} (idle : f.mnem = .nop) (i : RegNum) : writesReg f i = false := by
  rw [writesReg, idle]
  rfl

/-- After two `nop`s every use is in order. -/
theorem usesOk_after_nops {p₂ p₁ : Fields} (idle₂ : p₂.mnem = .nop) (idle₁ : p₁.mnem = .nop) (q : Fields) :
    usesOk p₂ p₁ q = true := by
  simp [usesOk, useOk, writesReg_of_nop idle₁, writesReg_of_nop idle₂]

/-! ### The slots of a padded block -/

/-- A slot of the padding after the instruction at `r.pc`: it holds `nop`, registers and memory are what the instruction
has left, and what it fetches, if it fetches, is one of the three words after the instruction. -/
structure PaddingSlot (r : RefState) (σ : SlotState) : Prop where
  idle : σ.fields.mnem = .nop
  reg : σ.ref.reg = (refStep r).reg
  mem : σ.ref.mem = (refStep r).mem
  address : σ.slot ≠ .bubble → ∃ n ∈ [(1 : Word), 2, 3], σ.fetchAddress = r.pc + n

/-- The slots of a padded block: the instruction, three slots of padding, and the first slot after the block. -/
structure PaddedSlots (r : RefState) : Prop where
  first : PaddingSlot r (slots r 5)
  second : PaddingSlot r (slots r 6)
  third : PaddingSlot r (slots r 7)
  nextInstr : (slots r 8).slot = .instr
  nextRef : (slots r 8).ref = refBlock r

theorem pc_add_add (v a b c : Word) (sum : a + b = c) : v + a + b = v + c := by rw [BitVec.add_assoc, sum]

/-- An instruction's slot with one of the padding words is a slot of the padding, and goes on to the next word. -/
theorem paddingSlot_of_instr {r : RefState} (padded : Padded r) {σ : SlotState} (instr : σ.slot = .instr)
    (reg : σ.ref.reg = (refStep r).reg) (mem : σ.ref.mem = (refStep r).mem) {n : Word} (inPadding : n ∈ [(1 : Word), 2, 3])
    (pc : σ.ref.pc = r.pc + n) :
    PaddingSlot r σ ∧ (slotStep σ).slot = .instr ∧ (slotStep σ).ref.reg = (refStep r).reg ∧
      (slotStep σ).ref.mem = (refStep r).mem ∧ (slotStep σ).ref.pc = r.pc + (n + 1) ∧
        (slotStep σ).ref = refStep σ.ref := by
  have idle : (refFields σ.ref).mnem = .nop := by
    rw [refFields, mem, pc]
    exact (padded n inPadding).2
  have idleSlot : σ.fields.mnem = .nop := by rw [SlotState.fields_of_instr instr, idle]
  have steps : (slotStep σ).ref = refStep σ.ref := by rw [slotStep_ref, SlotState.after_of_instr instr]
  refine ⟨⟨idleSlot, reg, mem, fun _ => ⟨n, inPadding, ?_⟩⟩, ?_, ?_, ?_, ?_, steps⟩
  · rw [SlotState.fetchAddress, if_pos instr, pc]
  · rw [(slotStep_of_instr instr).1, idleSlot]
    rfl
  all_goals rw [steps, refStep_of_idle (.inl idle)]
  · exact reg
  · exact mem
  · exact (congrArg (· + 1) pc).trans (pc_add_add _ _ _ _ rfl)

/-- A slot that fetches no instruction of the reference, right after it or in its shadow. -/
theorem paddingSlot_of_not_instr {r : RefState} {σ : SlotState} (notInstr : σ.slot ≠ .instr) (ref : σ.ref = refStep r)
    (address : σ.slot ≠ .bubble → ∃ n ∈ [(1 : Word), 2, 3], σ.seq = r.pc + n) : PaddingSlot r σ where
  idle := by rw [SlotState.fields_of_ne_instr notInstr, bubbleFields_mnem]
  reg := by rw [ref]
  mem := by rw [ref]
  address fetches := by
    rw [SlotState.fetchAddress, if_neg notInstr]
    exact address fetches

theorem slots_four_slot (r : RefState) : (slots r 4).slot = .instr := by rw [slots_four]; rfl

theorem slots_four_ref (r : RefState) : (slots r 4).ref = r := by rw [slots_four]; rfl

theorem slots_four_fields (r : RefState) : (slots r 4).fields = refFields r := by
  rw [SlotState.fields_of_instr (slots_four_slot r), slots_four_ref]

theorem slots_five (r : RefState) :
    (slots r 5).slot = slotAfter (refFields r).mnem ∧ (slots r 5).ref = refStep r ∧ (slots r 5).seq = r.pc + 1 := by
  obtain ⟨slot, seq⟩ := slotStep_of_instr (slots_four_slot r)
  rw [slots_four_fields] at slot
  rw [slots_four_ref] at seq
  rw [slots_step r 0]
  refine ⟨slot, ?_, seq⟩
  rw [slotStep_ref, SlotState.after_of_instr (slots_four_slot r), slots_four_ref]

/-- A transfer's block: its three shadow slots, then its target. -/
theorem paddedSlots_of_transfer {r : RefState} (transfer : isTransfer (refFields r).mnem = true) : PaddedSlots r := by
  obtain ⟨slot₅, ref₅, seq₅⟩ := slots_five r
  rw [slotAfter_of_transfer transfer] at slot₅
  have notInstr₅ : (slots r 5).slot ≠ .instr := by rw [slot₅]; nofun
  obtain ⟨slot₆, seq₆⟩ := slotStep_of_shadow_succ slot₅
  rw [← slots_step r 1] at slot₆ seq₆
  have notInstr₆ : (slots r 6).slot ≠ .instr := by rw [slot₆]; nofun
  have ref₆ : (slots r 6).ref = refStep r := by rw [slots_ref_succ, SlotState.after_of_ne_instr notInstr₅, ref₅]
  rw [seq₅, pc_add_add _ 1 1 2 rfl] at seq₆
  obtain ⟨slot₇, seq₇⟩ := slotStep_of_shadow_succ slot₆
  rw [← slots_step r 2] at slot₇ seq₇
  have notInstr₇ : (slots r 7).slot ≠ .instr := by rw [slot₇]; nofun
  have ref₇ : (slots r 7).ref = refStep r := by rw [slots_ref_succ, SlotState.after_of_ne_instr notInstr₆, ref₆]
  rw [seq₆, pc_add_add _ 2 1 3 rfl] at seq₇
  obtain ⟨slot₈, -⟩ := slotStep_of_shadow_zero slot₇
  rw [← slots_step r 3] at slot₈
  refine ⟨paddingSlot_of_not_instr notInstr₅ ref₅ fun _ => ⟨1, by decide, seq₅⟩,
    paddingSlot_of_not_instr notInstr₆ ref₆ fun _ => ⟨2, by decide, seq₆⟩,
    paddingSlot_of_not_instr notInstr₇ ref₇ fun _ => ⟨3, by decide, seq₇⟩, slot₈, ?_⟩
  rw [slots_ref_succ, SlotState.after_of_ne_instr notInstr₇, ref₇, refBlock, blockSteps, if_pos transfer]
  rfl

/-- An `unassigned`'s block: its bubble, then the first two words of the padding, then the third. -/
theorem paddedSlots_of_unassigned {r : RefState} (padded : Padded r) (unassigned : (refFields r).mnem = .unassigned) :
    PaddedSlots r := by
  obtain ⟨slot₅, ref₅, -⟩ := slots_five r
  rw [unassigned] at slot₅
  have bubble₅ : (slots r 5).slot = .bubble := slot₅
  have notInstr₅ : (slots r 5).slot ≠ .instr := by rw [bubble₅]; nofun
  obtain ⟨slot₆, -⟩ := slotStep_of_bubble bubble₅
  rw [← slots_step r 1] at slot₆
  have ref₆ : (slots r 6).ref = refStep r := by rw [slots_ref_succ, SlotState.after_of_ne_instr notInstr₅, ref₅]
  have pc₆ : (slots r 6).ref.pc = r.pc + 1 := by rw [ref₆, refStep_of_idle (.inr unassigned)]
  obtain ⟨pad₆, slot₇, reg₇, mem₇, pc₇, ref₇⟩ :=
    paddingSlot_of_instr padded slot₆ (by rw [ref₆]) (by rw [ref₆]) (by decide) pc₆
  rw [← slots_step r 2] at slot₇ reg₇ mem₇ pc₇ ref₇
  obtain ⟨pad₇, slot₈, -, -, -, ref₈⟩ := paddingSlot_of_instr padded slot₇ reg₇ mem₇ (by decide) pc₇
  rw [← slots_step r 3] at slot₈ ref₈
  refine ⟨paddingSlot_of_not_instr notInstr₅ ref₅ fun fetches => absurd bubble₅ fetches, pad₆, pad₇, slot₈, ?_⟩
  rw [ref₈, ref₇, ref₆, refBlock, blockSteps, unassigned]
  rfl

/-- Any other instruction's block: itself and the three words of the padding. -/
theorem paddedSlots_of_sequential {r : RefState} (padded : Padded r) (noTransfer : isTransfer (refFields r).mnem = false)
    (assigned : (refFields r).mnem ≠ .unassigned) : PaddedSlots r := by
  obtain ⟨slot₅, ref₅, -⟩ := slots_five r
  rw [slotAfter_of_not_transfer noTransfer, if_neg assigned] at slot₅
  have pc₅ : (slots r 5).ref.pc = r.pc + 1 := by rw [ref₅, refStep_pc_of_not_transfer noTransfer]
  obtain ⟨pad₅, slot₆, reg₆, mem₆, pc₆, ref₆⟩ :=
    paddingSlot_of_instr padded slot₅ (by rw [ref₅]) (by rw [ref₅]) (by decide) pc₅
  rw [← slots_step r 1] at slot₆ reg₆ mem₆ pc₆ ref₆
  obtain ⟨pad₆, slot₇, reg₇, mem₇, pc₇, ref₇⟩ := paddingSlot_of_instr padded slot₆ reg₆ mem₆ (by decide) pc₆
  rw [← slots_step r 2] at slot₇ reg₇ mem₇ pc₇ ref₇
  obtain ⟨pad₇, slot₈, -, -, -, ref₈⟩ := paddingSlot_of_instr padded slot₇ reg₇ mem₇ (by decide) pc₇
  rw [← slots_step r 3] at slot₈ ref₈
  refine ⟨pad₅, pad₆, pad₇, slot₈, ?_⟩
  rw [ref₈, ref₇, ref₆, ref₅, refBlock, blockSteps, noTransfer, if_neg Bool.false_ne_true, if_neg assigned]
  rfl

theorem paddedSlots {r : RefState} (padded : Padded r) : PaddedSlots r := by
  by_cases transfer : isTransfer (refFields r).mnem = true
  · exact paddedSlots_of_transfer transfer
  by_cases unassigned : (refFields r).mnem = .unassigned
  · exact paddedSlots_of_unassigned padded unassigned
  · exact paddedSlots_of_sequential padded (Bool.not_eq_true _ ▸ transfer) unassigned

/-! ### The pipeline over one block -/

variable {r : RefState} {p : PipeState}

/-- Nothing in flight but the instruction in Decode: the pipeline is on the reference's stream. -/
theorem tracks_of_aligned (aligned : Aligned r p) : Tracks r 1 p := by
  obtain ⟨reg, mem, pc, decode, execute, memory, writeBack⟩ := aligned
  exact
    { reg := by rw [reg, slots_ref_of_lt r (by omega)]
      mem := by rw [mem, slots_ref_of_lt r (by omega)]
      writeBack := inWriteBack_of_nop (slots_mnem_of_lt r (by omega)) writeBack
      memory := inMemory_of_nop (slots_mnem_of_lt r (by omega)) memory
      execute := inExecute_of_nop (slots_mnem_of_lt r (by omega)) execute p.reg
      decode := by
        rw [slots_four, decode]
        exact ⟨rfl, fun _ => rfl⟩
      pc := by rw [pc, (slots_five r).2.2] }

/-- A slot of the padding is in order whenever the memory its fetch sees is the one before or the one after the
instruction. -/
theorem slotOk_of_padding {k : Nat} (padded : Padded r)
    (uses : usesOk (slots r k).fields (slots r (k + 1)).fields (slots r (k + 2)).fields = true)
    (coming : PaddingSlot r (slots r (k + 4)))
    (mem : (slots r (k + 2)).ref.mem = r.mem ∨ (slots r (k + 2)).ref.mem = (refStep r).mem) : SlotOk r k := by
  refine ⟨uses, fun fetches => ?_, fun active => absurd coming.idle active⟩
  obtain ⟨n, inPadding, address⟩ := coming.address fetches
  rw [coming.idle, slotFetch, address]
  rcases mem with mem | mem <;> rw [mem]
  · exact (padded n inPadding).1
  · exact (padded n inPadding).2

/-- Every clock of a padded block finds its slot in order. -/
theorem slotOk_of_padded (padded : Padded r) (j : Nat) (inBlock : j < 4) : SlotOk r (1 + j) := by
  have block := paddedSlots padded
  interval_cases j
  · exact slotOk_of_padding padded (usesOk_of_nop _ _ (slots_mnem_of_lt r (by omega))) block.first
      (.inl (by rw [slots_ref_of_lt r (by omega)]))
  · exact slotOk_of_padding padded (usesOk_after_nops (slots_mnem_of_lt r (by omega)) (slots_mnem_of_lt r (by omega)) _)
      block.second (.inl (by rw [slots_four_ref]))
  · exact slotOk_of_padding padded (usesOk_of_nop _ _ block.first.idle) block.third (.inr block.first.mem)
  · have mem₈ : (slots r 8).ref.mem = (slots r 6).ref.mem := by
      rw [slots_ref_succ, (SlotState.after_of_nop block.third.idle).2, block.third.mem, block.second.mem]
    have fetched : slotFetch r 4 = (slots r 8).fields := by
      rw [SlotState.fields_of_instr block.nextInstr, refFields, slotFetch, SlotState.fetchAddress, if_pos block.nextInstr,
        mem₈]
    exact ⟨usesOk_of_nop _ _ block.second.idle, fun _ => by rw [fetched], fun _ => fetched⟩

/-- Settles O53: four clocks take the pipeline to the end of the block on its stream, where the fetched word is the
reference's next one and the padding is in flight. -/
theorem isolatedInstructionAgrees : Obligations.IsolatedInstructionAgrees := by
  intro r p aligned padded
  have block := paddedSlots padded
  have start := tracks_of_aligned aligned
  have last : Tracks r 4 (pipeStep^[3] p) := start.iterate 3 fun j below => slotOk_of_padded padded j (by omega)
  have done : Tracks r 5 (pipeStep^[4] p) := start.iterate 4 (slotOk_of_padded padded)
  have ref₈ : (slots r 8).ref.reg = (slots r 7).ref.reg ∧ (slots r 8).ref.mem = (slots r 7).ref.mem := by
    rw [slots_ref_succ]
    exact SlotState.after_of_nop block.third.idle
  have address : (slots r 8).fetchAddress = (refBlock r).pc := by
    rw [SlotState.fetchAddress, if_pos block.nextInstr, block.nextRef]
  have mem : (slots r 6).ref.mem = (refBlock r).mem := by
    rw [← block.nextRef, ref₈.2, block.third.mem, block.second.mem]
  obtain ⟨fetched, advanced⟩ := last.pipeStep_of_fetch (by rw [block.nextInstr]; nofun)
  rw [← Function.iterate_succ_apply' pipeStep 3] at fetched advanced
  refine ⟨?_, by rw [done.mem, mem], by rw [advanced, address], ?_, ?_, ?_, ?_⟩
  · rw [done.reg, ← block.nextRef, ref₈.1, block.third.reg, block.first.reg]
  · rw [fetched, slotFetch, address, mem]
    rfl
  · exact done.execute.mnem.trans block.third.idle
  · exact done.memory.mnem.trans block.second.idle
  · exact done.writeBack.mnem.trans block.first.idle

/-! ### Block after block from reset -/

/-- The first clock fetches the first word; nothing else is in flight. -/
theorem aligned_first_clock (image : Memory) :
    Aligned (RefState.resetWith image) (pipeStep (PipeState.resetWith image)) := by
  refine ⟨rfl, rfl, rfl, rfl, ?_, ?_, ?_⟩ <;> exact bubbleFields_mnem

/-- Settles O54: by induction on the number of blocks. -/
theorem paddedRunAgrees : Obligations.PaddedRunAgrees := by
  intro image n padded
  induction n with
  | zero => exact aligned_first_clock image
  | succ n ih =>
    have before := ih fun j below => padded j (by omega)
    have after := isolatedInstructionAgrees _ _ before (padded n (by omega))
    rw [← Function.iterate_succ_apply' refBlock, ← Function.iterate_add_apply] at after
    rwa [show 4 * (n + 1) + 1 = 4 + (4 * n + 1) by omega]

end Sys2Proof.Safety
end

section
/-! The equivalence check (R337, R338, D22): the first mismatch of two register files and of two memories, and the report
that follows from them. -/

namespace Sys2Proof.Machine

/-! ### Registers -/

theorem firstRegMismatch_eq_none_iff (x y : RegFile) :
    firstRegMismatch x y = none ↔ ∀ i, RegFile.read x i = RegFile.read y i := by
  rw [firstRegMismatch, List.find?_eq_none]
  constructor
  · intro same i
    have listed : i ∈ (List.range 16).map (BitVec.ofNat 4) :=
      List.mem_map.2 ⟨i.toNat, List.mem_range.2 i.isLt, (BitVec.ofNat_toNat 4 i).trans (BitVec.setWidth_eq i)⟩
    simpa using same i listed
  · intro same i _
    simp [same i]

/-- The register reported differs, and every lower one agrees. -/
theorem firstRegMismatch_eq_some_iff (x y : RegFile) (i : RegNum) :
    firstRegMismatch x y = some i ↔
      RegFile.read x i ≠ RegFile.read y i ∧ ∀ j, j < i → RegFile.read x j = RegFile.read y j := by
  have number (j : RegNum) : BitVec.ofNat 4 j.toNat = j := (BitVec.ofNat_toNat 4 j).trans (BitVec.setWidth_eq j)
  rw [firstRegMismatch, List.find?_map, Option.map_eq_some_iff]
  constructor
  · rintro ⟨n, found, rfl⟩
    obtain ⟨differs, listed, lower⟩ := List.find?_range_eq_some.1 found
    refine ⟨by simpa using differs, fun j below => ?_⟩
    have position : j.toNat < n := by
      have := BitVec.lt_def.1 below
      rw [BitVec.toNat_ofNat] at this
      exact this.trans_le (Nat.mod_le n _)
    simpa [number] using lower j.toNat position
  · rintro ⟨differs, lower⟩
    refine ⟨i.toNat, List.find?_range_eq_some.2 ⟨?_, List.mem_range.2 i.isLt, fun n below => ?_⟩, number i⟩
    · simpa [number] using differs
    · have lowerNumber : BitVec.ofNat 4 n < i := by
        rw [BitVec.lt_def, BitVec.toNat_ofNat, Nat.mod_eq_of_lt (below.trans i.isLt)]
        exact below
      simpa using lower _ lowerNumber

/-! ### Memory -/

/-- A cell that two memories hold differently is listed in one of them. -/
theorem Memory.listed_of_readCell_ne {m n : Memory} {a : Nat} (differs : Memory.readCell m a ≠ Memory.readCell n a) :
    a ∈ (m ++ n).map Prod.fst := by
  by_contra unlisted
  have absent : ∀ c ∈ m ++ n, c.1 ≠ a := fun c listed same => unlisted (List.mem_map.2 ⟨c, listed, same⟩)
  exact differs ((readCell_of_not_listed fun c listed => absent c (List.mem_append_left n listed)).trans
    (readCell_of_not_listed fun c listed => absent c (List.mem_append_right m listed)).symm)

/-- The word indices the check looks through are those at which the memories differ. -/
theorem mem_memMismatches_iff (m n : Memory) (a : Nat) :
    (a ∈ ((m ++ n).map Prod.fst).filter fun a =>
      decide (a < memWords) && Memory.readCell m a != Memory.readCell n a) ↔
      a < memWords ∧ Memory.readCell m a ≠ Memory.readCell n a := by
  rw [List.mem_filter, Bool.and_eq_true, decide_eq_true_eq, bne_iff_ne]
  exact ⟨fun ⟨_, cell⟩ => cell, fun cell => ⟨Memory.listed_of_readCell_ne cell.2, cell⟩⟩

theorem firstMemMismatch_eq_none_iff (m n : Memory) :
    firstMemMismatch m n = none ↔ ∀ a < memWords, Memory.readCell m a = Memory.readCell n a := by
  rw [firstMemMismatch, List.min?_eq_none_iff, List.eq_nil_iff_forall_not_mem]
  simp only [mem_memMismatches_iff, not_and, not_not]

/-- The cell reported differs, and every lower one agrees. -/
theorem firstMemMismatch_eq_some_iff (m n : Memory) (a : Nat) :
    firstMemMismatch m n = some a ↔
      a < memWords ∧ Memory.readCell m a ≠ Memory.readCell n a ∧
        ∀ b < a, Memory.readCell m b = Memory.readCell n b := by
  rw [firstMemMismatch, List.min?_eq_some_iff]
  simp only [mem_memMismatches_iff, and_assoc]
  refine and_congr_right fun inMemory => and_congr_right fun _ => ⟨fun lowest b below => ?_, fun lower b ⟨_, differs⟩ => ?_⟩
  · by_contra differs
    exact absurd (lowest b ⟨below.trans inMemory, differs⟩) (by omega)
  · by_contra below
    exact differs (lower b (by omega))

/-- Words name exactly the cells below 65536 (R51). -/
theorem Memory.read_eq_iff (m n : Memory) :
    (∀ a : Word, Memory.read m a = Memory.read n a) ↔ ∀ a < memWords, Memory.readCell m a = Memory.readCell n a := by
  constructor
  · intro same a inMemory
    have named : (BitVec.ofNat 16 a).toNat = a := by rw [BitVec.toNat_ofNat]; exact Nat.mod_eq_of_lt inMemory
    have cell := same (BitVec.ofNat 16 a)
    rwa [read, read, u16, named] at cell
  · exact fun same a => same a.toNat a.isLt

/-! ### The report -/

section
variable (r : RefState) (p : PipeState)

theorem check_eq_pcMismatch_iff (v w : Word) :
    check r p = .pcMismatch v w ↔ r.pc ≠ p.pc ∧ v = r.pc ∧ w = p.pc := by
  rw [check]
  by_cases pc : r.pc = p.pc
  · rw [if_neg (not_not.2 pc)]
    cases firstRegMismatch r.reg p.reg <;> cases firstMemMismatch r.mem p.mem <;> simp [pc]
  · rw [if_pos pc]
    simp [pc, eq_comm]

theorem check_eq_regMismatch_iff (i : RegNum) (v w : Word) :
    check r p = .regMismatch i v w ↔
      r.pc = p.pc ∧ firstRegMismatch r.reg p.reg = some i ∧ v = RegFile.read r.reg i ∧ w = RegFile.read p.reg i := by
  rw [check]
  by_cases pc : r.pc = p.pc
  · rw [if_neg (not_not.2 pc)]
    cases firstRegMismatch r.reg p.reg with
    | some j =>
      simp only [Report.regMismatch.injEq, Option.some.injEq, pc, true_and]
      refine and_congr_right fun same => ?_
      rw [same, eq_comm (a := v), eq_comm (a := w)]
    | none => cases firstMemMismatch r.mem p.mem <;> simp
  · rw [if_pos pc]
    simp [pc]

theorem check_eq_memMismatch_iff (a : Nat) (v w : Word) :
    check r p = .memMismatch a v w ↔
      r.pc = p.pc ∧ firstRegMismatch r.reg p.reg = none ∧ firstMemMismatch r.mem p.mem = some a ∧
        v = Memory.readCell r.mem a ∧ w = Memory.readCell p.mem a := by
  rw [check]
  by_cases pc : r.pc = p.pc
  · rw [if_neg (not_not.2 pc)]
    cases firstRegMismatch r.reg p.reg with
    | some j => simp
    | none =>
      cases firstMemMismatch r.mem p.mem with
      | some b =>
        simp only [Report.memMismatch.injEq, Option.some.injEq, pc, true_and]
        refine and_congr_right fun same => ?_
        rw [same, eq_comm (a := v), eq_comm (a := w)]
      | none => simp
  · rw [if_pos pc]
    simp [pc]

theorem check_eq_equal_iff :
    check r p = .equal ↔
      r.pc = p.pc ∧ firstRegMismatch r.reg p.reg = none ∧ firstMemMismatch r.mem p.mem = none := by
  rw [check]
  by_cases pc : r.pc = p.pc
  · rw [if_neg (not_not.2 pc)]
    cases firstRegMismatch r.reg p.reg <;> cases firstMemMismatch r.mem p.mem <;> simp [pc]
  · rw [if_pos pc]
    simp [pc]

end

/-- Settles O57: each report by the mismatch that it names, each mismatch by the cells or registers that differ. -/
theorem checkReportsFirstMismatch : Obligations.CheckReportsFirstMismatch := by
  intro r p
  refine ⟨?_, check_eq_pcMismatch_iff r p, fun i v w => ?_, fun a v w => ?_⟩
  · rw [check_eq_equal_iff, firstRegMismatch_eq_none_iff, firstMemMismatch_eq_none_iff, Memory.read_eq_iff]
    rfl
  · rw [check_eq_regMismatch_iff, firstRegMismatch_eq_some_iff, and_assoc]
    rfl
  · rw [check_eq_memMismatch_iff, firstRegMismatch_eq_none_iff, firstMemMismatch_eq_some_iff, and_assoc, and_assoc]
    rfl

end Sys2Proof.Machine
end

section
/-! Hazard-free programs (R345 to R355): the rules on the slots below `m` keep the pipeline on the reference's stream for
`m` clocks. -/

namespace Sys2Proof.Safety

open Sys2Proof.Machine

/-! ### The stream of a run over an image -/

/-- The stream from reset. -/
abbrev imageSlots (image : Memory) (j : Nat) : SlotState := slots (RefState.resetWith image) j

theorem imageSlots_add_four (image : Memory) (k : Nat) : imageSlots image (k + 4) = slotRun image k :=
  slots_add_four _ k

theorem imageSlots_ref (image : Memory) (j : Nat) : (imageSlots image j).ref = (slotRun image (j - 4)).ref :=
  slots_ref _ j

theorem slotFields_eq (image : Memory) (k : Nat) : slotFields image k = (slotRun image k).fields := by
  rw [slotFields, SlotState.fields]
  cases (slotRun image k).slot <;> rfl

theorem imageSlots_fields (image : Memory) (k : Nat) : (imageSlots image (k + 4)).fields = slotFields image k := by
  rw [imageSlots_add_four, slotFields_eq]

/-- Looking back at most four slots stays in the stream. -/
theorem slotFieldsBefore_eq (image : Memory) {k d j : Nat} (index : j + d = k + 4) :
    slotFieldsBefore image k d = (imageSlots image j).fields := by
  rw [slotFieldsBefore]
  split
  case isTrue started =>
    rw [show j = k - d + 4 by omega, imageSlots_fields]
  case isFalse early => rw [imageSlots, slots_fields_of_lt _ (by omega)]

/-- The fetch of slot `k`, in the memory two slots back (R354). -/
theorem slotFetch_eq (image : Memory) (k : Nat) :
    slotFetch (RefState.resetWith image) k = fetchedFields image k (slotRun image k).fetchAddress := by
  rw [slotFetch, fetchedFields, ← imageSlots_add_four]
  exact congrArg (fun s : RefState => fieldsOf (Memory.read s.mem _)) (imageSlots_ref image (k + 2))

/-- `fetchOk` in its cases: the instruction's slot fetches the instruction, a shadow slot a `nop`. -/
theorem slotFetch_of_fetchOk {image : Memory} {k : Nat} (ok : fetchOk image k = true) :
    ((slotRun image k).slot = .instr → slotFetch (RefState.resetWith image) k = (slotRun image k).fields) ∧
      ((slotRun image k).slot ≠ .bubble →
        (slotFetch (RefState.resetWith image) k).mnem = (slotRun image k).fields.mnem) := by
  rw [slotFetch_eq, SlotState.fetchAddress, SlotState.fields]
  rw [fetchOk] at ok
  cases slot : (slotRun image k).slot with
  | instr =>
    rw [slot] at ok
    have fetched := of_decide_eq_true ok
    exact ⟨fun _ => fetched, fun _ => congrArg Fields.mnem fetched⟩
  | bubble => exact ⟨nofun, fun fetches => absurd rfl fetches⟩
  | shadow n =>
    rw [slot] at ok
    exact ⟨nofun, fun _ => (beq_iff_eq.1 ok).trans bubbleFields_mnem.symm⟩

/-- The rules on the slots below `m` put each of the first `m` clocks' slots in order. -/
theorem slotOk_of_hazardFree {image : Memory} {m : Nat} (hazardFree : HazardFree image m) {k : Nat} (below : k < m) :
    SlotOk (RefState.resetWith image) k := by
  obtain ⟨fetchInstr, fetchAny⟩ := slotFetch_of_fetchOk (hazardFree k below).2
  refine ⟨?_, ?_, fun active => ?_⟩
  · rcases Nat.lt_or_ge k 2 with early | started
    · exact usesOk_of_nop _ _ (slots_mnem_of_lt _ (by omega))
    · obtain ⟨k, rfl⟩ := Nat.exists_eq_add_of_le' started
      have uses := (hazardFree k (by omega)).1
      rwa [slotFieldsBefore_eq image (k := k) (j := k + 2) rfl, slotFieldsBefore_eq image (k := k) (j := k + 3) rfl,
        ← imageSlots_fields] at uses
  · rw [← imageSlots_add_four] at fetchAny
    exact fetchAny
  · rw [← imageSlots_add_four] at fetchInstr
    exact fetchInstr (SlotState.instr_of_ne_nop active)

/-! ### The pipeline from reset -/

/-- The reset pipeline stands before the first slot: bubbles in every stage (R36). -/
theorem tracks_reset (image : Memory) : Tracks (RefState.resetWith image) 0 (PipeState.resetWith image) where
  reg := by rw [slots_ref_of_lt _ (by omega)]; rfl
  mem := by rw [slots_ref_of_lt _ (by omega)]; rfl
  writeBack := inWriteBack_of_nop (slots_mnem_of_lt _ (by omega)) bubbleFields_mnem
  memory := inMemory_of_nop (slots_mnem_of_lt _ (by omega)) bubbleFields_mnem
  execute := inExecute_of_nop (slots_mnem_of_lt _ (by omega)) bubbleFields_mnem _
  decode := inDecode_of_nop (slots_mnem_of_lt _ (by omega)) bubbleFields_mnem
  pc := by rw [slots_four]; rfl

theorem tracks_of_hazardFree {image : Memory} {m : Nat} (hazardFree : HazardFree image m) :
    Tracks (RefState.resetWith image) m (pipeRun m (PipeState.resetWith image)) := by
  have tracks := (tracks_reset image).iterate m fun j below => by
    rw [Nat.zero_add]
    exact slotOk_of_hazardFree hazardFree below
  rwa [Nat.zero_add] at tracks

/-! ### Counting slots (R355) -/

/-- The slots that are still to come before the next instruction. -/
def pendingSlots : Slot → Nat
  | .instr => 0
  | .bubble => 1
  | .shadow n => n + 1

/-- One slot more: a step is one slot, a transfer three more, an `unassigned` one more. -/
theorem slotStep_count (σ : SlotState) {k : Nat}
    (count : k + pendingSlots σ.slot = σ.steps + 3 * σ.transfers + σ.unassigneds) :
    k + 1 + pendingSlots (slotStep σ).slot =
      (slotStep σ).steps + 3 * (slotStep σ).transfers + (slotStep σ).unassigneds := by
  obtain ⟨ref, slot, seq, steps, transfers, unassigneds⟩ := σ
  match slot with
  | .instr =>
    simp only [slotStep, pendingSlots] at count ⊢
    by_cases transfer : isTransfer (refFields ref).mnem = true
    · have assigned : (refFields ref).mnem ≠ .unassigned := fun same => by rw [same] at transfer; nomatch transfer
      rw [slotAfter_of_transfer transfer, transfer, beq_false_of_ne assigned, Bool.toNat_true, Bool.toNat_false]
      dsimp only
      omega
    · rw [Bool.not_eq_true] at transfer
      rw [slotAfter_of_not_transfer transfer, transfer]
      by_cases unassigned : (refFields ref).mnem = .unassigned
      · rw [if_pos unassigned, unassigned, beq_self_eq_true, Bool.toNat_true, Bool.toNat_false]
        dsimp only
        omega
      · rw [if_neg unassigned, beq_false_of_ne unassigned, Bool.toNat_false]
        dsimp only
        omega
  | .bubble => simp only [slotStep, pendingSlots] at count ⊢; omega
  | .shadow 0 => simp only [slotStep, pendingSlots] at count ⊢; omega
  | .shadow (n + 1) => simp only [slotStep, pendingSlots] at count ⊢; omega

/-- One slot more keeps the reference state at the counted number of steps. -/
theorem slotStep_refRun (σ : SlotState) {r : RefState} (counted : σ.ref = refRun σ.steps r) :
    (slotStep σ).ref = refRun (slotStep σ).steps r := by
  obtain ⟨ref, slot, seq, steps, transfers, unassigneds⟩ := σ
  match slot with
  | .instr =>
    have stepped : refStep ref = refRun (steps + 1) r := by
      rw [refRun, Function.iterate_succ_apply']
      exact congrArg refStep counted
    exact stepped
  | .bubble => exact counted
  | .shadow 0 => exact counted
  | .shadow (n + 1) => exact counted

theorem slotRun_step (image : Memory) (k : Nat) : slotRun image (k + 1) = slotStep (slotRun image k) := by
  rw [← imageSlots_add_four, ← imageSlots_add_four]
  exact slots_step _ k

/-- The slots so far, with those still pending, are the steps, three for each transfer and one for each `unassigned`. -/
theorem slotRun_count (image : Memory) (k : Nat) :
    k + pendingSlots (slotRun image k).slot =
      (slotRun image k).steps + 3 * (slotRun image k).transfers + (slotRun image k).unassigneds := by
  induction k with
  | zero => rfl
  | succ k ih =>
    rw [slotRun_step]
    exact slotStep_count _ ih

/-- The run's reference state is the reference after as many steps as it counts. -/
theorem slotRun_ref (image : Memory) (k : Nat) :
    (slotRun image k).ref = refRun (slotRun image k).steps (RefState.resetWith image) := by
  induction k with
  | zero => rfl
  | succ k ih =>
    rw [slotRun_step]
    exact slotStep_refRun _ ih

/-- Settles O55: the pipeline is on the stream at slot `m`, whose registers and memory lag by four and three slots. -/
theorem hazardFreeRunAgrees : Obligations.HazardFreeRunAgrees := by
  intro image m hazardFree
  have tracks := tracks_of_hazardFree hazardFree
  refine ⟨?_, ?_, ?_, slotRun_ref image m, fun instr => ?_⟩
  · rw [tracks.reg, imageSlots_ref]
  · rw [tracks.mem, imageSlots_ref]
    rfl
  · rw [PipeState.pc, tracks.pc, ← imageSlots_add_four]
  · have count := slotRun_count image m
    rwa [instr] at count

/-! ### Quiet last slots -/

/-- A quiet instruction is no transfer, no `unassigned`, and writes no register. -/
theorem quietInstr_cases {m : Mnemonic} (quiet : quietInstr m = true) :
    isTransfer m = false ∧ m ≠ .unassigned ∧ memoryWriteBackEnable m = false ∧ aluWriteBackEnable m = false := by
  simpa only [quietInstr, Bool.and_eq_true, Bool.not_eq_true', bne_iff_ne, and_assoc] using quiet

theorem SlotState.after_reg_of_quiet {σ : SlotState} (quiet : quietInstr σ.fields.mnem = true) :
    σ.after.reg = σ.ref.reg := by
  obtain ⟨-, -, noMemoryWriteBack, noAluWriteBack⟩ := quietInstr_cases quiet
  refine RegFile.ext_of_read fun i => after_reg_read_of_not_writesReg ?_
  rw [writesReg, noMemoryWriteBack, noAluWriteBack]
  rfl

theorem SlotState.after_mem_of_not_write {σ : SlotState} (noWrite : memoryAccessKind σ.fields.mnem ≠ .write) :
    σ.after.mem = σ.ref.mem := by
  by_cases instr : σ.slot = .instr
  · rw [fields_of_instr instr] at noWrite
    rw [after_of_instr instr, refStep_mem, refAccess, memAccess_snd, if_neg noWrite]
  · rw [after_of_ne_instr instr]

/-- In the stream's indices: the four slots before slot `m` are quiet, and the three before it store nothing. -/
theorem quiet_slots {image : Memory} {m : Nat} (quiet : Quiet image m) {j : Nat} (before : j < m + 4) :
    (m ≤ j → quietInstr (imageSlots image j).fields.mnem = true) ∧
      (m + 1 ≤ j → memoryAccessKind (imageSlots image j).fields.mnem ≠ .write) := by
  rcases Nat.lt_or_ge j 4 with empty | started
  · rw [imageSlots, slots_mnem_of_lt _ empty]
    exact ⟨fun _ => rfl, fun _ => nofun⟩
  · obtain ⟨k, rfl⟩ := Nat.exists_eq_add_of_le' started
    rw [imageSlots_fields]
    exact ⟨fun near => (quiet k (by omega)).1 (by omega), fun near => (quiet k (by omega)).2 (by omega)⟩

/-- After four quiet slots the coming slot is an instruction at the sequential address: no shadow and no bubble is left. -/
theorem instr_of_quiet {r : RefState} {m : Nat}
    (quiet : ∀ j, m ≤ j → j < m + 4 → quietInstr (slots r j).fields.mnem = true) :
    (slots r (m + 4)).slot = .instr ∧ (slots r (m + 4)).seq = (slots r (m + 4)).ref.pc := by
  have noTransfer {j : Nat} (from' : m ≤ j) (below : j < m + 4) : transferAt r j = false :=
    (quietInstr_cases (quiet j from' below)).1
  have assigned : (slots r (m + 3)).fields.mnem ≠ .unassigned := (quietInstr_cases (quiet _ (by omega) (by omega))).2.1
  have shape := slotShape r m
  match slot : (slots r (m + 4)).slot with
  | .instr =>
    rw [slotShape_of_instr slot, noTransfer (by omega) (by omega)] at shape
    exact ⟨rfl, shape.resolve_left Bool.false_ne_true⟩
  | .bubble => exact absurd ((slots_bubble_iff r m).1 slot) assigned
  | .shadow n =>
    obtain ⟨bound, transfer⟩ := (slotShape_of_shadow slot).1 shape
    rw [noTransfer (by omega) (by omega)] at transfer
    nomatch transfer

/-- Quiet slots leave the registers, slots without a store the memory. -/
theorem slots_reg_of_quiet {r : RefState} {j n : Nat}
    (quiet : ∀ i < n, quietInstr (slots r (j + i)).fields.mnem = true) :
    (slots r (j + n)).ref.reg = (slots r j).ref.reg := by
  induction n with
  | zero => rfl
  | succ n ih =>
    have last := SlotState.after_reg_of_quiet (quiet n (by omega))
    rw [← ih fun i below => quiet i (by omega), ← last, ← slots_ref_succ]
    rfl

theorem slots_mem_of_no_store {r : RefState} {j n : Nat}
    (noStore : ∀ i < n, memoryAccessKind (slots r (j + i)).fields.mnem ≠ .write) :
    (slots r (j + n)).ref.mem = (slots r j).ref.mem := by
  induction n with
  | zero => rfl
  | succ n ih =>
    have last := SlotState.after_mem_of_not_write (noStore n (by omega))
    rw [← ih fun i below => noStore i (by omega), ← last, ← slots_ref_succ]
    rfl

/-- Models with equal pc, registers and memory are reported equal. -/
theorem check_of_same {r : RefState} {p : PipeState} (pc : r.pc = p.pc) (reg : r.reg = p.reg) (mem : r.mem = p.mem) :
    check r p = .equal := by
  rw [check_eq_equal_iff, firstRegMismatch_eq_none_iff, firstMemMismatch_eq_none_iff, reg, mem]
  exact ⟨pc, fun _ => rfl, fun _ _ => rfl⟩

/-- Settles O56: with quiet last slots nothing is in flight that the reference has done and the pipeline has not. -/
theorem hazardFreeCheckIsEqual : Obligations.HazardFreeCheckIsEqual := by
  intro image m hazardFree quiet
  have tracks := tracks_of_hazardFree hazardFree
  have quietSlot (j : Nat) (near : m ≤ j) (before : j < m + 4) := (quiet_slots quiet before).1 near
  have noStore (j : Nat) (near : m + 1 ≤ j) (before : j < m + 4) := (quiet_slots quiet before).2 near
  obtain ⟨-, sequential⟩ := instr_of_quiet quietSlot
  rw [run, ← slotRun_ref, ← imageSlots_add_four]
  refine check_of_same ?_ ?_ ?_
  · rw [PipeState.pc, tracks.pc, sequential]
  · rw [tracks.reg]
    exact slots_reg_of_quiet fun i below => quietSlot _ (by omega) (by omega)
  · rw [tracks.mem]
    exact slots_mem_of_no_store (j := m + 1) (n := 3) fun i below => noStore _ (by omega) (by omega)

end Sys2Proof.Safety
end

section
/-! The memory image (R332, R333, D21): what one line means, and what a sequence of lines leaves in the memory. -/

namespace Sys2Proof.Machine

/-! ### One line -/

theorem parseImageLine_of_blank {line : List Char} (blank : lineTokens line = []) : parseImageLine line = .ok none := by
  rw [parseImageLine, blank]

/-- Two integers in range are a pair. -/
theorem parseImageLine_of_pair {line x y : List Char} {a : Nat} {v : Int} (tokens : lineTokens line = [x, y])
    (address : decimalNat x = some a) (value : decimalInt y = some v)
    (inRange : a < memWords ∧ -32768 ≤ v ∧ v ≤ 65535) : parseImageLine line = .ok (some (a, v)) := by
  rw [parseImageLine, tokens]
  dsimp only
  rw [address, value]
  exact if_pos inRange

/-- Everything a line can be: blank, a pair in range, or a RangeError. -/
theorem parseImageLine_cases (line : List Char) :
    (lineTokens line = [] ∧ parseImageLine line = .ok none) ∨
    (∃ x y a v, lineTokens line = [x, y] ∧ decimalNat x = some a ∧ decimalInt y = some v ∧
      (a < memWords ∧ -32768 ≤ v ∧ v ≤ 65535) ∧ parseImageLine line = .ok (some (a, v))) ∨
    (lineTokens line ≠ [] ∧ parseImageLine line = .error .range) := by
  match tokens : lineTokens line with
  | [] => exact .inl ⟨rfl, parseImageLine_of_blank tokens⟩
  | [_] => exact .inr (.inr ⟨nofun, by rw [parseImageLine, tokens]⟩)
  | _ :: _ :: _ :: _ => exact .inr (.inr ⟨nofun, by rw [parseImageLine, tokens]⟩)
  | [x, y] =>
    rw [parseImageLine, tokens]
    dsimp only
    match address : decimalNat x, value : decimalInt y with
    | none, _ => exact .inr (.inr ⟨nofun, rfl⟩)
    | some _, none => exact .inr (.inr ⟨nofun, rfl⟩)
    | some a, some v =>
      dsimp only
      by_cases inRange : a < memWords ∧ -32768 ≤ v ∧ v ≤ 65535
      · exact .inr (.inl ⟨x, y, a, v, rfl, address, value, inRange, if_pos inRange⟩)
      · exact .inr (.inr ⟨nofun, if_neg inRange⟩)

theorem parseImageLine_eq_pair_iff (line : List Char) (a : Nat) (v : Int) :
    parseImageLine line = .ok (some (a, v)) ↔
      ∃ x y, lineTokens line = [x, y] ∧ decimalNat x = some a ∧ decimalInt y = some v ∧
        a ≤ 65535 ∧ -32768 ≤ v ∧ v ≤ 65535 := by
  constructor
  · intro parsed
    rcases parseImageLine_cases line with ⟨-, other⟩ | ⟨x, y, b, w, tokens, address, value, inRange, pair⟩ | ⟨-, other⟩
    · cases parsed.symm.trans other
    · cases parsed.symm.trans pair
      exact ⟨x, y, tokens, address, value, Nat.le_of_lt_succ inRange.1, inRange.2⟩
    · cases parsed.symm.trans other
  · rintro ⟨x, y, tokens, address, value, inMemory, inRange⟩
    exact parseImageLine_of_pair tokens address value ⟨Nat.lt_succ_of_le inMemory, inRange⟩

theorem parseImageLine_eq_blank_iff (line : List Char) : parseImageLine line = .ok none ↔ lineTokens line = [] := by
  constructor
  · intro parsed
    rcases parseImageLine_cases line with ⟨blank, -⟩ | ⟨x, y, b, w, -, -, -, -, other⟩ | ⟨-, other⟩
    · exact blank
    · cases parsed.symm.trans other
    · cases parsed.symm.trans other
  · exact parseImageLine_of_blank

theorem eq_range_of_parseImageLine_error {line : List Char} {k : ErrorKind} (bad : parseImageLine line = .error k) :
    k = .range := by
  rcases parseImageLine_cases line with ⟨-, other⟩ | ⟨x, y, b, w, -, -, -, -, other⟩ | ⟨-, range⟩
  · cases bad.symm.trans other
  · cases bad.symm.trans other
  · cases bad.symm.trans range
    rfl

theorem address_lt_of_parseImageLine {line : List Char} {c : Nat × Int} (parsed : parseImageLine line = .ok (some c)) :
    c.1 < memWords := by
  obtain ⟨x, y, -, -, -, inMemory, -⟩ := (parseImageLine_eq_pair_iff line c.1 c.2).1 parsed
  exact Nat.lt_succ_of_le inMemory

/-! ### A sequence of lines -/

theorem loadImageLines_cons_pair {l : List Char} {c : Nat × Int} (parsed : parseImageLine l = .ok (some c)) (m : Memory)
    (ls : List (List Char)) : loadImageLines m (l :: ls) = loadImageLines (storeImagePair m c) ls := by
  rw [loadImageLines, parsed]

theorem loadImageLines_cons_blank {l : List Char} (parsed : parseImageLine l = .ok none) (m : Memory)
    (ls : List (List Char)) : loadImageLines m (l :: ls) = loadImageLines m ls := by
  rw [loadImageLines, parsed]

theorem loadImageLines_cons_error {l : List Char} {k : ErrorKind} (bad : parseImageLine l = .error k) (m : Memory)
    (ls : List (List Char)) : loadImageLines m (l :: ls) = .error k := by
  rw [loadImageLines, bad]

/-- Good lines store their pairs in order. -/
theorem loadImageLines_of_good (m : Memory) {ls : List (List Char)} {cs : List (Option (Nat × Int))}
    (good : ls.map parseImageLine = cs.map Except.ok) :
    loadImageLines m ls = .ok ((cs.filterMap id).foldl storeImagePair m) := by
  induction ls generalizing cs m with
  | nil =>
    obtain rfl := List.map_eq_nil_iff.1 good.symm
    rfl
  | cons l ls ih =>
    match cs, good with
    | none :: cs, good =>
      obtain ⟨parsed, rest⟩ := List.cons.inj good
      exact (loadImageLines_cons_blank parsed m ls).trans (ih (cs := cs) m rest)
    | some c :: cs, good =>
      obtain ⟨parsed, rest⟩ := List.cons.inj good
      exact (loadImageLines_cons_pair parsed m ls).trans (ih (cs := cs) (storeImagePair m c) rest)

/-- The pairs of good lines are in range. -/
theorem address_lt_of_good {ls : List (List Char)} {cs : List (Option (Nat × Int))}
    (good : ls.map parseImageLine = cs.map Except.ok) : ∀ c ∈ cs.filterMap id, c.1 < memWords := by
  intro c listed
  have present : some c ∈ cs := by simpa using listed
  have answered : Except.ok (some c) ∈ ls.map parseImageLine := good ▸ List.mem_map_of_mem present
  obtain ⟨l, -, parsed⟩ := List.mem_map.1 answered
  exact address_lt_of_parseImageLine parsed

/-- Storing pairs in range keeps the canonical form. -/
theorem foldl_storeImagePair_wf {m : Memory} (canonical : Memory.wf m) {pairs : List (Nat × Int)}
    (inRange : ∀ c ∈ pairs, c.1 < memWords) : Memory.wf (pairs.foldl storeImagePair m) := by
  induction pairs generalizing m with
  | nil => exact canonical
  | cons c pairs ih =>
    exact ih (Memory.writeCell_wf canonical (inRange c List.mem_cons_self) _) fun d later =>
      inRange d (List.mem_cons_of_mem c later)

/-- A cell after storing pairs: the last pair for it, else what it held. -/
theorem readCell_foldl_storeImagePair (m : Memory) (pairs : List (Nat × Int)) (a : Nat) :
    Memory.readCell (pairs.foldl storeImagePair m) a =
      (((pairs.filter fun c => c.1 == a).getLast?).map fun c => trunc16 c.2).getD (Memory.readCell m a) := by
  induction pairs generalizing m with
  | nil => rfl
  | cons c pairs ih =>
    rw [List.foldl_cons, ih, storeImagePair, Memory.readCell_writeCell, List.filter_cons]
    by_cases named : c.1 = a
    · rw [if_pos named.symm, if_pos (beq_iff_eq.2 named), List.getLast?_cons]
      cases (pairs.filter fun c => c.1 == a).getLast? <;> rfl
    · rw [if_neg (Ne.symm named), if_neg (named ∘ beq_iff_eq.1)]

/-- Loading stops at the first bad line, whatever follows it. -/
theorem loadImageLines_of_bad (m : Memory) {good : List (List Char)} (rest : List (List Char)) {bad : List Char}
    {k : ErrorKind} (goodLines : ∀ l ∈ good, ∃ c, parseImageLine l = .ok c) (isBad : parseImageLine bad = .error k) :
    loadImageLines m (good ++ bad :: rest) = .error k := by
  induction good generalizing m with
  | nil => exact loadImageLines_cons_error isBad m rest
  | cons l good ih =>
    have later (m : Memory) := ih m fun l listed => goodLines l (List.mem_cons_of_mem _ listed)
    obtain ⟨c, parsed⟩ := goodLines l List.mem_cons_self
    cases c with
    | none => exact (loadImageLines_cons_blank parsed m _).trans (later m)
    | some c => exact (loadImageLines_cons_pair parsed m _).trans (later _)

/-- Settles O58: one line by its cases, good lines by the pairs they store, a bad line where loading stops. -/
theorem imageLoadsLastLineStopsAtBadLine : Obligations.ImageLoadsLastLineStopsAtBadLine := by
  refine ⟨parseImageLine_eq_pair_iff, parseImageLine_eq_blank_iff, rfl, rfl, rfl, rfl, rfl, rfl,
    fun ls cs good => ?_, fun m good rest bad k goodLines isBad => ?_⟩
  · refine ⟨_, loadImageLines_of_good [] good, foldl_storeImagePair_wf Memory.wf_nil (address_lt_of_good good), fun a => ?_⟩
    rw [readCell_foldl_storeImagePair]
    cases ((cs.filterMap id).filter fun c => c.1 == a).getLast? <;> rfl
  · obtain rfl := eq_range_of_parseImageLine_error isBad
    exact ⟨rfl, loadImageLines_of_bad m rest goodLines isBad⟩

end Sys2Proof.Machine
end

section
/-! The harness's errors and result (R334, R339, R340). -/

namespace Sys2Proof.Machine

/-! ### The errors of the counts and of the image -/

/-- The errors of a reading that may fail. -/
def errorsOf {α : Type} : Except (List ErrorKind) α → List ErrorKind
  | .ok _ => []
  | .error ks => ks

theorem fatalErrors_eq (inv : Invocation) :
    fatalErrors inv = errorsOf (parseCounts inv.counts) ++ errorsOf (parseImage inv.image) := by
  rw [fatalErrors]
  cases parseCounts inv.counts <;> cases parseImage inv.image <;> rfl

theorem parseCount_eq_error_iff (text : List Char) (k : ErrorKind) :
    parseCount text = .error k ↔
      (k = .parse ∧ decimalInt text = none) ∨ (k = .range ∧ ∃ v, decimalInt text = some v ∧ v < 0) := by
  rw [parseCount]
  cases decimalInt text with
  | none => simp [eq_comm]
  | some v =>
    by_cases negative : v < 0
    · simp [negative, eq_comm]
    · simp [negative]

/-- Everything two counts can give: both numbers, or each error that one of them holds. -/
theorem parseCounts_pair (n m : List Char) :
    (∃ a b, parseCounts [n, m] = .ok (a, b) ∧ parseCount n = .ok a ∧ parseCount m = .ok b) ∨
      (∃ k ks, parseCounts [n, m] = .error (k :: ks) ∧
        ∀ j, j ∈ k :: ks ↔ parseCount n = .error j ∨ parseCount m = .error j) := by
  rw [parseCounts]
  cases parseCount n with
  | ok a =>
    cases parseCount m with
    | ok b => exact .inl ⟨a, b, rfl, rfl, rfl⟩
    | error k => exact .inr ⟨k, [], rfl, fun j => by simp [eq_comm]⟩
  | error i =>
    cases parseCount m with
    | ok b => exact .inr ⟨i, [], rfl, fun j => by simp [eq_comm]⟩
    | error k => exact .inr ⟨i, [k], rfl, fun j => by simp [eq_comm]⟩

theorem parseCounts_of_length_ne {counts : List (List Char)} (wrong : counts.length ≠ 2) :
    parseCounts counts = .error [.usage] := by
  match counts with
  | [] | [_] | _ :: _ :: _ :: _ => rfl
  | [_, _] => exact absurd rfl wrong

/-- The errors of the counts: the wrong number of them, or what one of the two holds. -/
theorem mem_countErrors_iff (counts : List (List Char)) (k : ErrorKind) :
    k ∈ errorsOf (parseCounts counts) ↔
      (counts.length ≠ 2 ∧ k = .usage) ∨ (counts.length = 2 ∧ ∃ c ∈ counts, parseCount c = .error k) := by
  by_cases two : counts.length = 2
  · obtain ⟨n, m, rfl⟩ := List.length_eq_two.1 two
    rcases parseCounts_pair n m with ⟨a, b, parsed, first, second⟩ | ⟨j, js, parsed, errors⟩
    · simp [parsed, errorsOf, first, second]
    · rw [parsed, errorsOf, errors k]
      simp
  · rw [parseCounts_of_length_ne two]
    simp [errorsOf, two]

theorem countErrors_eq_nil {counts : List (List Char)} (none : errorsOf (parseCounts counts) = []) :
    ∃ n m, parseCounts counts = .ok (n, m) := by
  match parsed : parseCounts counts with
  | .ok (n, m) => exact ⟨n, m, rfl⟩
  | .error ks =>
    by_cases two : counts.length = 2
    · obtain ⟨n, m, rfl⟩ := List.length_eq_two.1 two
      rcases parseCounts_pair n m with ⟨a, b, other, -⟩ | ⟨j, js, other, -⟩
      · cases parsed.symm.trans other
      · rw [other] at none
        nomatch none
    · rw [parseCounts_of_length_ne two] at none
      nomatch none

theorem loadImageLines_error {m : Memory} {ls : List (List Char)} {k : ErrorKind}
    (failed : loadImageLines m ls = .error k) : k = .range := by
  induction ls generalizing m with
  | nil => nomatch failed
  | cons l ls ih =>
    match parsed : parseImageLine l with
    | .ok none => exact ih ((loadImageLines_cons_blank parsed m ls).symm.trans failed)
    | .ok (some c) => exact ih ((loadImageLines_cons_pair parsed m ls).symm.trans failed)
    | .error j =>
      cases (loadImageLines_cons_error parsed m ls).symm.trans failed
      exact eq_range_of_parseImageLine_error parsed

/-- The errors of the image: a missing file, or a bad line. -/
theorem mem_imageErrors_iff (image : Option (List Char)) (k : ErrorKind) :
    k ∈ errorsOf (parseImage image) ↔
      (image = none ∧ k = .io) ∨ (k = .range ∧ ∃ text, image = some text ∧ loadImage text = .error .range) := by
  cases image with
  | none => simp [parseImage, errorsOf]
  | some text =>
    rw [parseImage]
    match loaded : loadImage text with
    | .ok m => simp [errorsOf, loaded]
    | .error j =>
      obtain rfl := loadImageLines_error loaded
      simp [errorsOf, loaded]

theorem imageErrors_eq_nil {image : Option (List Char)} (none : errorsOf (parseImage image) = []) :
    ∃ text m, image = some text ∧ loadImage text = .ok m ∧ parseImage image = .ok m := by
  cases image with
  | none => nomatch none
  | some text =>
    rw [parseImage] at none ⊢
    match loaded : loadImage text with
    | .ok m => exact ⟨text, m, rfl, loaded, rfl⟩
    | .error j =>
      rw [loaded] at none
      nomatch none

/-- Every fatal error by its cause. -/
theorem mem_fatalErrors_iff (inv : Invocation) (k : ErrorKind) :
    k ∈ fatalErrors inv ↔
      ((inv.counts.length ≠ 2 ∧ k = .usage) ∨
        (inv.counts.length = 2 ∧ ∃ c ∈ inv.counts,
          (k = .parse ∧ decimalInt c = none) ∨ (k = .range ∧ ∃ v, decimalInt c = some v ∧ v < 0))) ∨
      (inv.image = none ∧ k = .io) ∨ (k = .range ∧ ∃ text, inv.image = some text ∧ loadImage text = .error .range) := by
  rw [fatalErrors_eq, List.mem_append, mem_countErrors_iff, mem_imageErrors_iff]
  simp only [parseCount_eq_error_iff]

/-! ### What the harness ends with -/

/-- The error reported is one of those that hold, whatever the free choice. -/
theorem reportFatal_mem (k : ErrorKind) (ks : List ErrorKind) : ∃ j ∈ k :: ks, reportFatal k ks = .fatal j := by
  cases ks with
  | nil => exact ⟨k, List.mem_cons_self, rfl⟩
  | cons i ks =>
    refine ⟨_, ?_, rfl⟩
    match chosen : (k :: i :: ks)[Config.fatalChoice (k :: i :: ks) % ((i :: ks).length + 1)]? with
    | none => exact List.mem_cons_self
    | some j => exact List.mem_of_getElem? chosen

theorem harness_of_fatal {inv : Invocation} {k : ErrorKind} {ks : List ErrorKind} (fatal : fatalErrors inv = k :: ks) :
    harness inv = reportFatal k ks := by
  have errors := (fatalErrors_eq inv).symm.trans fatal
  rw [harness]
  match counts : parseCounts inv.counts, image : parseImage inv.image with
  | .ok _, .ok _ =>
    rw [counts, image] at errors
    nomatch errors
  | .ok _, .error _ | .error _, .ok _ | .error _, .error _ =>
    dsimp only
    rw [fatal]

theorem harness_of_ok {inv : Invocation} {n m : Nat} {image : Memory} (counts : parseCounts inv.counts = .ok (n, m))
    (loaded : parseImage inv.image = .ok image) : harness inv = .completed (run image n m) := by
  rw [harness, counts, loaded]

theorem error_completed (rep : Report) :
    RunResult.error (.completed rep) = if rep = .equal then none else some .equivalenceMismatch := by
  cases rep <;> rfl

/-- Settles O59: the kinds by their causes, then the two ways the harness ends. -/
theorem harnessErrorsBeforeAnyRun : Obligations.HarnessErrorsBeforeAnyRun := by
  intro inv
  refine ⟨?_, ?_, ?_, ?_, ?_, fun holds => ?_, fun none => ?_, error_completed⟩
  · simp [mem_fatalErrors_iff]
  · simp [mem_fatalErrors_iff]
  · simp [mem_fatalErrors_iff]
  · simp [mem_fatalErrors_iff]
  · simp [mem_fatalErrors_iff]
  · obtain ⟨k, ks, fatal⟩ := List.exists_cons_of_ne_nil holds
    obtain ⟨j, holds, reported⟩ := reportFatal_mem k ks
    exact ⟨j, fatal ▸ holds, (harness_of_fatal fatal).trans reported⟩
  · rw [fatalErrors_eq, List.append_eq_nil_iff] at none
    obtain ⟨n, m, counts⟩ := countErrors_eq_nil none.1
    obtain ⟨text, image, isText, loaded, parsed⟩ := imageErrors_eq_nil none.2
    exact ⟨text, image, n, m, isText, loaded, counts, harness_of_ok counts parsed⟩

/-- Settles O60: an error's code is a successor. -/
theorem exitStatusZeroExactlyOnSuccess : Obligations.ExitStatusZeroExactlyOnSuccess := by
  have failing (k : ErrorKind) : Config.exitCode k ≠ 0 := Nat.succ_ne_zero _
  refine fun r => ⟨?_, failing⟩
  match r with
  | .fatal k => exact ⟨fun zero => absurd zero (failing k), nofun⟩
  | .completed .equal => exact ⟨fun _ => rfl, fun _ => rfl⟩
  | .completed (.pcMismatch _ _) => exact ⟨fun zero => absurd zero (failing _), nofun⟩
  | .completed (.regMismatch _ _ _) => exact ⟨fun zero => absurd zero (failing _), nofun⟩
  | .completed (.memMismatch _ _ _) => exact ⟨fun zero => absurd zero (failing _), nofun⟩

end Sys2Proof.Machine
end
